-- ==== Sys2Proof/Word.lean ====
section
/-! DEFINITION. The bit-vector and index types of the LS-8 core (00_scope.md R5). -/

namespace Sys2Proof

/-- One memory cell, register or operand byte: 8 bits, unsigned (R5, R21, R50). -/
abbrev Byte := BitVec 8

/-- The program counter: 9 bits (R25). -/
abbrev Pc := BitVec 9

/-- A register number that has passed the decode-time check: 0 to 7 (R21, R24). -/
abbrev Reg := Fin 8

end Sys2Proof
end

