-- ==== Sys2Proof/Config.lean ====
section
/-! DEFINITION. What an implementation of the LS-8 core fixes: sizes, the stack's reset top, and the two OPEN
parameters (00_scope.md R4). The spec leaves no value undefined, so there is no free value here. -/

namespace Sys2Proof

/-- `MEM_SIZE`: number of memory cells, the capacity of both accessors (R4, R51). -/
def Config.memSize : Nat := 256

/-- `STACK_TOP`: the reset value of register 7 (R4, R37). -/
def Config.stackTop : Byte := 0xF4

/-- `SP_INDEX`: the register used as stack pointer (R4, R22). -/
def Config.spIndex : Reg := 7

/-- The OPEN parameters of the core that shape its dispatch table (R4, R35). -/
structure Params where
  /-- `OPC_ADDI`: the opcode byte of ADD-IMMEDIATE, or none where the instruction is absent (R87). -/
  opcAddi : Option Byte
  /-- `ALU_EXT`: whether SUB, MOD, NOT, AND, OR, XOR, SHL, SHR have opcodes (R89). -/
  aluExt : Bool
  deriving DecidableEq, Repr

/-- The parameters' defaults: no ADDI, no optional ALU opcodes (R4). -/
def Params.defaults : Params := { opcAddi := none, aluExt := false }

/-- The parameters under which every row of the opcode table that has a number is a key (R88, R89). -/
def Params.allNumbered : Params := { opcAddi := none, aluExt := true }

end Sys2Proof
end

