-- ==== Sys2Proof/Syntax.lean ====
section
/-! DEFINITION. The instructions of the LS-8 core: one constructor per row of spec/opcode_table.json, in its order. -/

namespace Sys2Proof

/-- An instruction with its operands checked and named: `ra` is operand byte A and `rb` operand byte B as register
numbers, `imm` is LDI's operand byte B (R80, R84, R85). -/
inductive Instr where
  /-- HLT (R130), format F0. -/
  | hlt
  /-- LDI Ra, imm (R131), format F2. -/
  | ldi (ra : Reg) (imm : Byte)
  /-- PRN Ra (R132), format F1. -/
  | prn (ra : Reg)
  /-- ADD Ra, Rb (R150), format F2. -/
  | add (ra rb : Reg)
  /-- MUL Ra, Rb (R151), format F2. -/
  | mul (ra rb : Reg)
  /-- PUSH Ra (R170), format F1. -/
  | push (ra : Reg)
  /-- POP Ra (R171), format F1. -/
  | pop (ra : Reg)
  /-- CALL Ra (R180), format F1. -/
  | call (ra : Reg)
  /-- RET (R181), format F0. -/
  | ret
  /-- CMP Ra, Rb (R190), format F2. -/
  | cmp (ra rb : Reg)
  /-- JEQ Ra (R191), format F1. -/
  | jeq (ra : Reg)
  /-- JNE Ra (R192), format F1. -/
  | jne (ra : Reg)
  /-- JMP Ra (R193), format F1. -/
  | jmp (ra : Reg)
  /-- ADDI Ra, Rb (R152), format F2, present only when `OPC_ADDI` is given. -/
  | addi (ra rb : Reg)
  /-- SUB Ra, Rb (R153), format F2, present only when `ALU_EXT`. -/
  | sub (ra rb : Reg)
  /-- MOD Ra, Rb (R154), format F2, present only when `ALU_EXT`. -/
  | mod (ra rb : Reg)
  /-- NOT Ra (R155), format F1, present only when `ALU_EXT`. -/
  | not (ra : Reg)
  /-- AND Ra, Rb (R156), format F2, present only when `ALU_EXT`. -/
  | and (ra rb : Reg)
  /-- OR Ra, Rb (R157), format F2, present only when `ALU_EXT`. -/
  | or (ra rb : Reg)
  /-- XOR Ra, Rb (R158), format F2, present only when `ALU_EXT`. -/
  | xor (ra rb : Reg)
  /-- SHL Ra, Rb (R159), format F2, present only when `ALU_EXT`. -/
  | shl (ra rb : Reg)
  /-- SHR Ra, Rb (R160), format F2, present only when `ALU_EXT`. -/
  | shr (ra rb : Reg)
  deriving DecidableEq, Repr

end Sys2Proof
end

