-- ==== Sys2Proof/WellFormed.lean ====
section
/-! DEFINITION. When an instruction exists in a core with given parameters. Register numbers are in range by their
type, so the two checks left are the two optional parts of the dispatch table (R87, R88, R89). -/

namespace Sys2Proof

/-- The instruction has a row in the dispatch table of a core with parameters `p`: ADDI needs `OPC_ADDI`, the eight
optional ALU instructions need `ALU_EXT`, the thirteen others are always there (R88). -/
def Instr.wellFormed (p : Params) : Instr → Bool
  | .hlt | .ldi _ _ | .prn _ | .add _ _ | .mul _ _ | .push _ | .pop _ | .call _ | .ret
  | .cmp _ _ | .jeq _ | .jne _ | .jmp _ => true
  | .addi _ _ => p.opcAddi.isSome
  | .sub _ _ | .mod _ _ | .not _ | .and _ _ | .or _ _ | .xor _ _ | .shl _ _ | .shr _ _ => p.aluExt

end Sys2Proof
end

