-- ==== Sys2Proof/Decode.lean ====
section
/-! DEFINITION. The opcode bytes, the dispatch table, the decoder (total on any three bytes, rejecting by name), and
after it the encoder, written from the same tables of 30_encoding.md. -/

namespace Sys2Proof

/-! ## Opcode bytes (R86, R89) -/

/-- `OPC_HLT` (R86). -/
def opcHlt : Byte := 0x01
/-- `OPC_LDI` (R86). -/
def opcLdi : Byte := 0x82
/-- `OPC_PRN` (R86). -/
def opcPrn : Byte := 0x47
/-- `OPC_ADD` (R86). -/
def opcAdd : Byte := 0xA0
/-- `OPC_MUL` (R86). -/
def opcMul : Byte := 0xA2
/-- `OPC_PUSH` (R86). -/
def opcPush : Byte := 0x45
/-- `OPC_POP` (R86). -/
def opcPop : Byte := 0x46
/-- `OPC_CALL` (R86). -/
def opcCall : Byte := 0x50
/-- `OPC_RET` (R86). -/
def opcRet : Byte := 0x11
/-- `OPC_CMP` (R86). -/
def opcCmp : Byte := 0xA7
/-- `OPC_JEQ` (R86). -/
def opcJeq : Byte := 0x55
/-- `OPC_JNE` (R86). -/
def opcJne : Byte := 0x56
/-- `OPC_JMP` (R86). -/
def opcJmp : Byte := 0x54
/-- SUB's optional opcode (R89). -/
def opcSub : Byte := 0xA1
/-- MOD's optional opcode (R89). -/
def opcMod : Byte := 0xA4
/-- NOT's optional opcode (R89). -/
def opcNot : Byte := 0x69
/-- AND's optional opcode (R89). -/
def opcAnd : Byte := 0xA8
/-- OR's optional opcode (R89). -/
def opcOr : Byte := 0xAA
/-- XOR's optional opcode (R89). -/
def opcXor : Byte := 0xAB
/-- SHL's optional opcode (R89). -/
def opcShl : Byte := 0xAC
/-- SHR's optional opcode (R89). -/
def opcShr : Byte := 0xAD

/-! ## The dispatch table (R35, R88) -/

/-- One row of the dispatch table: which operand bytes the instruction uses, and as what (R80). -/
inductive Row where
  /-- Format F0: no operand byte. -/
  | f0 (i : Instr)
  /-- Format F1: operand A is a register. -/
  | f1 (mk : Reg → Instr)
  /-- Format F2: operands A and B are registers. -/
  | f2 (mk : Reg → Reg → Instr)
  /-- Format F2 of LDI: operand A is a register, operand B an immediate. -/
  | f2imm (mk : Reg → Byte → Instr)

/-- The thirteen rows that are always present (R86). -/
def baseRows : List (Byte × Row) :=
  [(opcHlt, .f0 .hlt), (opcLdi, .f2imm .ldi), (opcPrn, .f1 .prn), (opcAdd, .f2 .add), (opcMul, .f2 .mul),
   (opcPush, .f1 .push), (opcPop, .f1 .pop), (opcCall, .f1 .call), (opcRet, .f0 .ret), (opcCmp, .f2 .cmp),
   (opcJeq, .f1 .jeq), (opcJne, .f1 .jne), (opcJmp, .f1 .jmp)]

/-- The eight rows that exist only when `ALU_EXT` is true (R89). -/
def aluExtRows : List (Byte × Row) :=
  [(opcSub, .f2 .sub), (opcMod, .f2 .mod), (opcNot, .f1 .not), (opcAnd, .f2 .and), (opcOr, .f2 .or),
   (opcXor, .f2 .xor), (opcShl, .f2 .shl), (opcShr, .f2 .shr)]

/-- ADDI's row, present only when `OPC_ADDI` is a byte (R87). -/
def addiRows : Option Byte → List (Byte × Row)
  | none => []
  | some b => [(b, .f2 .addi)]

/-- The dispatch table of a core with parameters `p` (R88). -/
def dispatchTable (p : Params) : List (Byte × Row) :=
  baseRows ++ (if p.aluExt then aluExtRows else []) ++ addiRows p.opcAddi

/-- The keys of the dispatch table: the legal opcode bytes (R88). -/
def dispatchKeys (p : Params) : List Byte := (dispatchTable p).map Prod.fst

/-- What R87 asks of `OPC_ADDI`: it is not one of the thirteen values, nor one of the eight where they are present, so
that all keys are distinct (R88). -/
def Params.wf (p : Params) : Bool :=
  match p.opcAddi with
  | none => true
  | some b => !((baseRows ++ (if p.aluExt then aluExtRows else [])).map Prod.fst).contains b

/-- The row whose key is exactly `ir`, no bit ignored (R88, R112). -/
def findRow : List (Byte × Row) → Byte → Option Row
  | [], _ => none
  | (k, r) :: rest, ir => if ir = k then some r else findRow rest ir

/-- Dispatch: the row that the opcode byte selects, if any (R112). -/
def dispatch (p : Params) (ir : Byte) : Option Row := findRow (dispatchTable p) ir

/-! ## Decoding (R110 stages 2 and 3) -/

/-- Why three fetched bytes are no instruction. -/
inductive DecodeError where
  /-- The opcode byte is not a key of the dispatch table (R90, R112). -/
  | illegalOpcode (ir : Byte)
  /-- An operand byte used as a register index is above 7 (R24, R113). -/
  | registerIndex (op : Byte)
  deriving DecidableEq, Repr

/-- The decode-time check of one register operand: the byte is the register number, not masked (R24, R84). -/
def regOperand (op : Byte) : Except DecodeError Reg :=
  if h : op.toNat < 8 then .ok ⟨op.toNat, h⟩ else .error (.registerIndex op)

/-- The operand check and the instruction of a selected row: A before B, unused bytes unchecked (R113). -/
def Row.build : Row → Byte → Byte → Except DecodeError Instr
  | .f0 i, _, _ => .ok i
  | .f1 mk, opA, _ =>
    match regOperand opA with
    | .error e => .error e
    | .ok ra => .ok (mk ra)
  | .f2 mk, opA, opB =>
    match regOperand opA with
    | .error e => .error e
    | .ok ra =>
      match regOperand opB with
      | .error e => .error e
      | .ok rb => .ok (mk ra rb)
  | .f2imm mk, opA, opB =>
    match regOperand opA with
    | .error e => .error e
    | .ok ra => .ok (mk ra opB)

/-- The decoder: dispatch on the opcode byte, then the operand check (R112, R113). -/
def decode (p : Params) (ir opA opB : Byte) : Except DecodeError Instr :=
  match dispatch p ir with
  | none => .error (.illegalOpcode ir)
  | some row => row.build opA opB

/-- The instruction at the head of a byte sequence of at least three bytes, the number the engine always fetches (R81);
none where the decoder refuses or a byte is missing. -/
def decodeBytes (p : Params) : List Byte → Option Instr
  | ir :: opA :: opB :: _ =>
    match decode p ir opA opB with
    | .ok i => some i
    | .error _ => none
  | _ => none

/-! ## Encoding (R80 to R89) -/

/-- The opcode byte of an instruction in a core with parameters `p`; none where the row is absent (R86, R87, R89). -/
def Instr.opcode (p : Params) : Instr → Option Byte
  | .hlt => some opcHlt
  | .ldi _ _ => some opcLdi
  | .prn _ => some opcPrn
  | .add _ _ => some opcAdd
  | .mul _ _ => some opcMul
  | .push _ => some opcPush
  | .pop _ => some opcPop
  | .call _ => some opcCall
  | .ret => some opcRet
  | .cmp _ _ => some opcCmp
  | .jeq _ => some opcJeq
  | .jne _ => some opcJne
  | .jmp _ => some opcJmp
  | .addi _ _ => p.opcAddi
  | .sub _ _ => if p.aluExt then some opcSub else none
  | .mod _ _ => if p.aluExt then some opcMod else none
  | .not _ => if p.aluExt then some opcNot else none
  | .and _ _ => if p.aluExt then some opcAnd else none
  | .or _ _ => if p.aluExt then some opcOr else none
  | .xor _ _ => if p.aluExt then some opcXor else none
  | .shl _ _ => if p.aluExt then some opcShl else none
  | .shr _ _ => if p.aluExt then some opcShr else none

/-- The byte that names a register (R84). -/
def regByte (r : Reg) : Byte := BitVec.ofNat 8 r.val

/-- The operand bytes of an instruction, A first (R55, R80). -/
def Instr.operandBytes : Instr → List Byte
  | .hlt | .ret => []
  | .prn ra | .push ra | .pop ra | .call ra | .jeq ra | .jne ra | .jmp ra | .not ra => [regByte ra]
  | .ldi ra imm => [regByte ra, imm]
  | .add ra rb | .mul ra rb | .cmp ra rb | .addi ra rb | .sub ra rb | .mod ra rb | .and ra rb | .or ra rb
  | .xor ra rb | .shl ra rb | .shr ra rb => [regByte ra, regByte rb]

/-- How many of its operand bytes, A first, an instruction uses as register indices (R84). -/
def Instr.registerOperands : Instr → Nat
  | .hlt | .ret => 0
  | .ldi _ _ | .prn _ | .push _ | .pop _ | .call _ | .jeq _ | .jne _ | .jmp _ | .not _ => 1
  | .add _ _ | .mul _ _ | .cmp _ _ | .addi _ _ | .sub _ _ | .mod _ _ | .and _ _ | .or _ _ | .xor _ _
  | .shl _ _ | .shr _ _ => 2

/-- Instruction width in bytes: one opcode byte and the operand bytes of its format (R82). -/
def Instr.width : Instr → Nat
  | .hlt | .ret => 1
  | .prn _ | .push _ | .pop _ | .call _ | .jeq _ | .jne _ | .jmp _ | .not _ => 2
  | .ldi _ _ | .add _ _ | .mul _ _ | .cmp _ _ | .addi _ _ | .sub _ _ | .mod _ _ | .and _ _ | .or _ _
  | .xor _ _ | .shl _ _ | .shr _ _ => 3

/-- The bytes of an instruction in memory order; none where the core has no such row (R55, R80). -/
def encode (p : Params) (i : Instr) : Option (List Byte) :=
  match i.opcode p with
  | none => none
  | some b => some (b :: i.operandBytes)

/-! ## Words as the opcode table numbers them -/

/-- The three bytes the engine fetches for a table word of `nbits` bits: bit 0 of `w` is bit 0 of the first byte, the
next byte's bits count on from it, every bit from `nbits` up is 0. -/
def tableBytes (nbits w : Nat) : List Byte :=
  let v := w % 2 ^ nbits
  [BitVec.ofNat 8 v, BitVec.ofNat 8 (v / 2 ^ 8), BitVec.ofNat 8 (v / 2 ^ 16)]

/-- What the decoder reads from a table word in the core that has every numbered row (assumption 2). -/
def decodeTableWord (nbits w : Nat) : Option Instr := decodeBytes Params.allNumbered (tableBytes nbits w)

/-- The parameters of a core in which the opcode byte `ir` is a key, if that takes no more than the optional ALU rows:
`p` itself where it already is, else `p` with `ALU_EXT` (assumption 2). -/
def Params.admitting (p : Params) (ir : Byte) : Params :=
  if (dispatch p ir).isNone && (aluExtRows.map Prod.fst).contains ir then { p with aluExt := true } else p

end Sys2Proof
end

