-- ==== Sys2Proof/Machine/State.lean ====
section
/-! DEFINITION. The architectural state of the LS-8 core (10_state.md R20) as plain data, the reasons a step can stop,
and the state after reset (R37). -/

namespace Sys2Proof.Machine

/-- `FL`: the condition state, four mutually exclusive values (R28). -/
inductive Flags where
  | unset
  | equal
  | lessThan
  | greaterThan
  deriving DecidableEq, Repr

/-- `run`: the engine state (R31). -/
inductive RunState where
  | running
  | halted
  | faulted
  deriving DecidableEq, Repr

/-- The six fault kinds (R200). -/
inductive FaultKind where
  | addressFault
  | divisionByZero
  | illegalOpcode
  | stackOverflow
  | stackUnderflow
  | registerIndexFault
  deriving DecidableEq, Repr

/-- What a `raise` names: the kind and its `info` value, a mathematical integer (R6, R200). -/
structure FaultCause where
  kind : FaultKind
  info : Int
  deriving DecidableEq, Repr

/-- The fault record (R32): `opcode` is none where the read of the opcode byte itself faulted. -/
structure FaultRecord where
  kind : FaultKind
  opcode : Option Byte
  pcAtFault : Pc
  info : Int
  deriving DecidableEq, Repr

/-- Why a step answers no next state. Both are the core's two terminal states, from which the spec defines no step
(R31). The six fault kinds of R200 are no reasons of this type: they are next states with `run` FAULTED. -/
inductive Fault where
  /-- Raised by `step` when `run` is HALTED: no step is defined there (R31). Safe: nothing runs on. -/
  | noStepWhenHalted
  /-- Raised by `step` when `run` is FAULTED: no step is defined there (R31, R213). Safe: nothing runs on. -/
  | noStepWhenFaulted
  deriving DecidableEq, Repr

/-- Why an instruction has no meaning. No arm of `exec` uses it any more. -/
inductive Refusal where
  /-- Raised by an arm of `exec` for an instruction that has no meaning yet. Safe: the model stops. -/
  | notModelled (mnemonic : String)
  deriving DecidableEq, Repr

/-- Memory as address and byte pairs: addresses strictly rising, no entry equal to what an unlisted address reads as. -/
abbrev Memory := List Host.Cell

/-- The architectural state (R20), and the core's parameters beside it. -/
structure State where
  /-- `x[0..7]`; index 7 is the stack pointer (R21, R22). -/
  x : Vector Byte 8
  /-- The program counter, values 0 to 256 (R25). -/
  pc : Pc
  /-- The condition state (R28). -/
  fl : Flags
  /-- The engine state (R31). -/
  run : RunState
  /-- The fault record, present only when `run` is FAULTED (R32). -/
  fault : Option FaultRecord
  /-- The 256 cells (R34). -/
  mem : Memory
  /-- The bytes PRN emitted, oldest first (R33). -/
  out : List Byte
  /-- The MODEL's own field: the parameters of the step function (R4, R35), which no step writes (assumption 1). -/
  params : Params
  deriving DecidableEq, Repr

/-- The reset state of a core built with parameters `p` (R37, R240). -/
def State.resetWith (p : Params) : State :=
  { x := #v[0, 0, 0, 0, 0, 0, 0, Config.stackTop], pc := 0, fl := .unset, run := .running, fault := none, mem := [],
    out := [], params := p }

/-- The state right after reset, before the load, with the parameters at their defaults (R4, R37). -/
def State.reset : State := State.resetWith Params.defaults

end Sys2Proof.Machine
end

