-- ==== Sys2Proof/Machine/Ops.lean ====
section
/-! DEFINITION. The primitives of 00_scope.md R6: memory and register access, the program counter, the output stream,
and fault entry, the core's only exception entry (60_exceptions.md R212). -/

namespace Sys2Proof.Machine

/-! ## Memory (R50, R51) -/

/-- What an address that memory does not list reads as: the reset contents (R37). -/
def unlistedByte : Byte := 0

/-- The byte at an address. -/
def Memory.lookup : Memory → Nat → Byte
  | [], _ => unlistedByte
  | (k, v) :: rest, a => if a = k then v else Memory.lookup rest a

/-- Memory with the byte at an address replaced, in canonical form again. -/
def Memory.update : Memory → Nat → Byte → Memory
  | [], a, v => if v = unlistedByte then [] else [(a, v)]
  | (k, w) :: rest, a, v =>
    if a < k then (if v = unlistedByte then (k, w) :: rest else (a, v) :: (k, w) :: rest)
    else if a = k then (if v = unlistedByte then rest else (a, v) :: rest)
    else (k, w) :: Memory.update rest a v

/-- The canonical form: addresses strictly rising and inside memory, no entry equal to an unlisted cell. -/
abbrev Memory.wf (m : Memory) : Prop :=
  m.Pairwise (fun c d => c.1 < d.1) ∧ ∀ c ∈ m, c.1 < Config.memSize ∧ c.2 ≠ unlistedByte

/-- An address inside [0, capacity) (R51). -/
abbrev validAddr (addr : Int) : Prop := 0 ≤ addr ∧ addr.toNat < Config.memSize

/-- `MemRead(addr, 1)`: none stands for `raise AddressFault(addr)` (R6, R51). -/
def memRead (m : Memory) (addr : Int) : Option Byte :=
  if validAddr addr then some (Memory.lookup m addr.toNat) else none

/-- `MemWrite(addr, 1, v)`: none stands for `raise AddressFault(addr)` (R6, R51). -/
def memWrite (m : Memory) (addr : Int) (v : Byte) : Option Memory :=
  if validAddr addr then some (Memory.update m addr.toNat v) else none

/-! ## Registers, program counter, output -/

/-- `x[i]` (R6). -/
def State.getReg (s : State) (r : Reg) : Byte := s.x[r]

/-- `x[i] <- v` (R6). -/
def State.setReg (s : State) (r : Reg) (v : Byte) : State := { s with x := s.x.set r v }

/-- `SP`, that is `x[7]` (R22). -/
def State.sp (s : State) : Byte := s.getReg Config.spIndex

/-- `x[7] <- v` (R22). -/
def State.setSp (s : State) (v : Byte) : State := s.setReg Config.spIndex v

/-- `pc <- target` (R6). -/
def State.setPc (s : State) (target : Pc) : State := { s with pc := target }

/-- `pc <- pc + n`, the advance that the instruction's own rule states (R26). -/
def State.advance (s : State) (n : Pc) : State := s.setPc (s.pc + n)

/-- `FL <- v` (R6). -/
def State.setFl (s : State) (v : Flags) : State := { s with fl := v }

/-- `run <- v` (R6). -/
def State.setRun (s : State) (v : RunState) : State := { s with run := v }

/-- `Output(v)`: appends the byte to the output stream (R6, R33). -/
def State.output (s : State) (v : Byte) : State := { s with out := s.out ++ [v] }

/-- A read of one data cell, raising AddressFault outside memory (R6, R51). -/
def State.loadByte (s : State) (addr : Int) : Except FaultCause Byte :=
  match memRead s.mem addr with
  | some v => .ok v
  | none => .error { kind := .addressFault, info := addr }

/-- A write of one data cell, raising AddressFault outside memory (R6, R51). -/
def State.storeByte (s : State) (addr : Int) (v : Byte) : Except FaultCause State :=
  match memWrite s.mem addr v with
  | some m => .ok { s with mem := m }
  | none => .error { kind := .addressFault, info := addr }

/-! ## Fault entry (R211, R212)
There is no return from a fault: only reset leaves FAULTED (R213); that operation is `State.hostReset` in
Machine/Boot.lean. -/

/-- `raise K(info)` in a step with opcode byte `opcode` (or none): the record is written, `run` becomes FAULTED, nothing
else changes, `pc` included (R212). -/
def State.raise (s : State) (opcode : Option Byte) (c : FaultCause) : State :=
  { s with run := .faulted, fault := some { kind := c.kind, opcode := opcode, pcAtFault := s.pc, info := c.info } }

/-- The end of an instruction that may raise: its next state, or fault entry from the state it started in, so that a
faulting instruction changes nothing else (R7, R211). -/
def State.complete (s : State) (opcode : Option Byte) :
    Except FaultCause State → Host.Outcome State Fault Refusal
  | .ok t => .next t
  | .error c => .next (s.raise opcode c)

/-- The numeric label of a fault kind; 0 is kept for no fault (R200). -/
def FaultKind.code : FaultKind → Nat
  | .addressFault => 1
  | .divisionByZero => 2
  | .illegalOpcode => 3
  | .stackOverflow => 4
  | .stackUnderflow => 5
  | .registerIndexFault => 6

/-- The fault code of a state: its record's label, or 0 where there is none (R200). -/
def State.faultCode (s : State) : Nat :=
  match s.fault with
  | none => 0
  | some r => r.kind.code

end Sys2Proof.Machine
end

