-- ==== Sys2Proof/Machine/Boot.lean ====
section
/-! DEFINITION. The host's two actions on the core: reset and the program load (70_reset_and_hazards.md). -/

namespace Sys2Proof.Machine

/-- Reset from any state: every component takes its reset value, nothing survives (R240); the parameters are constants
of the core and stay (R35). It is the only way out of HALTED and FAULTED (R213). -/
def State.hostReset (s : State) : State := State.resetWith s.params

/-- The load's writes from an address up, in order; none where a write is outside memory (R242, R243). -/
def State.loadFrom (s : State) (addr : Int) : List Byte → Option State
  | [] => some s
  | b :: rest =>
    match memWrite s.mem addr b with
    | some m => State.loadFrom { s with mem := m } (addr + 1) rest
    | none => none

/-- The host's load of `PROGRAM` at address 0, between reset and the first step; none for an image longer than memory,
which is outside the core's precondition (R242, R243). -/
def State.load (s : State) (program : List Byte) : Option State := s.loadFrom 0 program

end Sys2Proof.Machine
end

