-- ==== Sys2Proof/Machine/AluFunctions.lean ====
section
/-! DEFINITION. The ALU as a pure function with ten selectors (42_alu.md R140 to R149), and the one form in which the
instructions use it: the first register operand is the destination. -/

namespace Sys2Proof.Machine

/-- The closed set of ALU selectors (R119). -/
inductive AluFn where
  | add
  | sub
  | mul
  | and
  | or
  | xor
  | not
  | shl
  | shr
  | mod
  deriving DecidableEq, Repr

/-- `ALU(f, a, b)`: an 8-bit result, or DivisionByZero with the dividend as `info` (R140 to R149, R200). -/
def alu : AluFn → Byte → Byte → Except FaultCause Byte
  | .add, a, b => .ok (BitVec.ofNat 8 (a.toNat + b.toNat))
  | .sub, a, b => .ok (BitVec.ofInt 8 ((a.toNat : Int) - b.toNat))
  | .mul, a, b => .ok (BitVec.ofNat 8 (a.toNat * b.toNat))
  | .and, a, b => .ok (a &&& b)
  | .or, a, b => .ok (a ||| b)
  | .xor, a, b => .ok (a ^^^ b)
  | .not, a, _ => .ok (~~~a)
  | .shl, a, b => .ok (a <<< b.toNat)
  | .shr, a, b => .ok (a >>> b.toNat)
  | .mod, a, b =>
    if b = 0 then .error { kind := .divisionByZero, info := a.toNat } else .ok (BitVec.ofNat 8 (a.toNat % b.toNat))

/-- `x[opA] <- ALU(f, x[opA], b)` and the advance of `pc`; both operands are read before the write (R161). -/
def State.aluInto (s : State) (f : AluFn) (ra : Reg) (b : Byte) (n : Pc) : Except FaultCause State :=
  match alu f (s.getReg ra) b with
  | .ok v => .ok ((s.setReg ra v).advance n)
  | .error c => .error c

end Sys2Proof.Machine
end

