-- ==== Sys2Proof/Machine/Alu.lean ====
section
/-! DEFINITION. The arithmetic and logic instructions (42_alu.md R150 to R160). -/

namespace Sys2Proof.Machine

/-- ADD Ra, Rb (R150). -/
def execAdd (ra rb : Reg) (s : State) : Host.Outcome State Fault Refusal :=
  s.complete (some opcAdd) (s.aluInto .add ra (s.getReg rb) 3)

/-- MUL Ra, Rb (R151). -/
def execMul (ra rb : Reg) (s : State) : Host.Outcome State Fault Refusal :=
  s.complete (some opcMul) (s.aluInto .mul ra (s.getReg rb) 3)

/-- ADDI Ra, Rb: a register add whose `pc` advance is 2, not 3, as the source's row literally says (R152). -/
def execAddi (ra rb : Reg) (s : State) : Host.Outcome State Fault Refusal :=
  s.complete s.params.opcAddi (s.aluInto .add ra (s.getReg rb) 2)

/-- SUB Ra, Rb (R153). -/
def execSub (ra rb : Reg) (s : State) : Host.Outcome State Fault Refusal :=
  s.complete (some opcSub) (s.aluInto .sub ra (s.getReg rb) 3)

/-- MOD Ra, Rb: DivisionByZero when `x[opB]` is 0, with the dividend as `info` (R154, R200). -/
def execMod (ra rb : Reg) (s : State) : Host.Outcome State Fault Refusal :=
  s.complete (some opcMod) (s.aluInto .mod ra (s.getReg rb) 3)

/-- NOT Ra: the second ALU operand is 0 and ignored (R155). -/
def execNot (ra : Reg) (s : State) : Host.Outcome State Fault Refusal :=
  s.complete (some opcNot) (s.aluInto .not ra 0 2)

/-- AND Ra, Rb (R156). -/
def execAnd (ra rb : Reg) (s : State) : Host.Outcome State Fault Refusal :=
  s.complete (some opcAnd) (s.aluInto .and ra (s.getReg rb) 3)

/-- OR Ra, Rb (R157). -/
def execOr (ra rb : Reg) (s : State) : Host.Outcome State Fault Refusal :=
  s.complete (some opcOr) (s.aluInto .or ra (s.getReg rb) 3)

/-- XOR Ra, Rb (R158). -/
def execXor (ra rb : Reg) (s : State) : Host.Outcome State Fault Refusal :=
  s.complete (some opcXor) (s.aluInto .xor ra (s.getReg rb) 3)

/-- SHL Ra, Rb: the shift amount is the value of register `rb` (R159). -/
def execShl (ra rb : Reg) (s : State) : Host.Outcome State Fault Refusal :=
  s.complete (some opcShl) (s.aluInto .shl ra (s.getReg rb) 3)

/-- SHR Ra, Rb: the shift amount is the value of register `rb` (R160). -/
def execShr (ra rb : Reg) (s : State) : Host.Outcome State Fault Refusal :=
  s.complete (some opcShr) (s.aluInto .shr ra (s.getReg rb) 3)

end Sys2Proof.Machine
end

