-- ==== Sys2Proof/Machine/Flags.lean ====
section
/-! DEFINITION. The flag computation of the core (45_compare_and_branch.md R190) and the flags' bit form (R30). CMP is
the only writer of `FL`; no arithmetic instruction touches it (R29). -/

namespace Sys2Proof.Machine

/-- The outcome of comparing two bytes as unsigned numbers (R190). -/
def compareFlags (a b : Byte) : Flags :=
  if a.toNat = b.toNat then .equal else if a.toNat < b.toNat then .lessThan else .greaterThan

/-- The bit form `FL[2:0]` with L, G, E as bits 2, 1, 0 (R30). -/
def Flags.bits : Flags → BitVec 3
  | .unset => 0b000
  | .equal => 0b001
  | .greaterThan => 0b010
  | .lessThan => 0b100

end Sys2Proof.Machine
end

