-- ==== Sys2Proof/Machine/Operands.lean ====
section
/-! DEFINITION. The operand forms of the core: a register as source, destination or jump target, and the one data
addressing mode, through SP, pre-decrement on write and post-increment on read (20_memory.md R53, 43_stack.md). -/

namespace Sys2Proof.Machine

/-- `zext_9(v)`: a byte as a program counter value (R6). -/
def zext9 (v : Byte) : Pc := v.setWidth 9

/-- The jump or call target that register `r` holds (R26). -/
def State.target (s : State) (r : Reg) : Pc := zext9 (s.getReg r)

/-- The return address CALL stores, `pc + 2`, as a cell (R180): it fits because an instruction executes only at 253 or
below (R27). -/
def State.returnAddress (s : State) : Byte := (s.pc + 2).setWidth 8

/-- The bound of POP and RET: the stack is empty from here up (R171, R181). -/
def popBound : Byte := Config.stackTop

/-- The write side of the stack: StackOverflow at SP = 0, else SP is decremented and then the byte `value` is stored at
the new SP; `value` reads the state after the decrement, as the order of R170's statements says (R170, R180). -/
def State.push (s : State) (value : State → Byte) : Except FaultCause State :=
  if s.sp = 0 then .error { kind := .stackOverflow, info := s.sp.toNat }
  else
    let s1 := s.setSp (s.sp - 1)
    s1.storeByte s1.sp.toNat (value s1)

/-- The read side of the stack: StackUnderflow at SP >= `STACK_TOP`, else the byte at SP (R171, R181). -/
def State.stackTopByte (s : State) : Except FaultCause Byte :=
  if popBound ≤ s.sp then .error { kind := .stackUnderflow, info := s.sp.toNat }
  else s.loadByte s.sp.toNat

/-- The post-increment of a pop: `x[7] <- (x[7] + 1) mod 256` (R171). -/
def State.dropTop (s : State) : State := s.setSp (s.sp + 1)

end Sys2Proof.Machine
end

