-- ==== Sys2Proof/Machine/Branch.lean ====
section
/-! DEFINITION. Compare and jumps: CMP, JEQ, JNE, JMP (45_compare_and_branch.md). -/

namespace Sys2Proof.Machine

/-- CMP Ra, Rb: `FL` takes the unsigned comparison (R190). -/
def execCmp (ra rb : Reg) (s : State) : Host.Outcome State Fault Refusal :=
  .next ((s.setFl (compareFlags (s.getReg ra) (s.getReg rb))).advance 3)

/-- JEQ Ra: jumps when `FL` is EQUAL, else falls through (R191). -/
def execJeq (ra : Reg) (s : State) : Host.Outcome State Fault Refusal :=
  .next (if s.fl = .equal then s.setPc (s.target ra) else s.advance 2)

/-- JNE Ra: jumps when `FL` is not EQUAL, UNSET included, else falls through (R192). -/
def execJne (ra : Reg) (s : State) : Host.Outcome State Fault Refusal :=
  .next (if s.fl ≠ .equal then s.setPc (s.target ra) else s.advance 2)

/-- JMP Ra (R193). -/
def execJmp (ra : Reg) (s : State) : Host.Outcome State Fault Refusal := .next (s.setPc (s.target ra))

end Sys2Proof.Machine
end

