-- ==== Sys2Proof/Machine/Stack.lean ====
section
/-! DEFINITION. The stack instructions PUSH and POP (43_stack.md). -/

namespace Sys2Proof.Machine

/-- PUSH Ra: the register is read after SP is decremented, so `PUSH R7` stores the new SP (R170). -/
def execPush (ra : Reg) (s : State) : Host.Outcome State Fault Refusal :=
  s.complete (some opcPush) <|
    match s.push (fun t => t.getReg ra) with
    | .ok t => .ok (t.advance 2)
    | .error c => .error c

/-- POP Ra: the register is written before SP is incremented, so `POP R7` leaves the popped byte plus 1 (R171). -/
def execPop (ra : Reg) (s : State) : Host.Outcome State Fault Refusal :=
  s.complete (some opcPop) <|
    match s.stackTopByte with
    | .ok v => .ok ((s.setReg ra v).dropTop.advance 2)
    | .error c => .error c

end Sys2Proof.Machine
end

