-- ==== Sys2Proof/Machine/Subroutine.lean ====
section
/-! DEFINITION. Subroutine call and return, CALL and RET (44_subroutine.md). -/

namespace Sys2Proof.Machine

/-- CALL Ra: pushes `pc + 2`; the target is read after SP is decremented, so `CALL R7` jumps to the new SP (R180). -/
def execCall (ra : Reg) (s : State) : Host.Outcome State Fault Refusal :=
  s.complete (some opcCall) <|
    match s.push State.returnAddress with
    | .ok t => .ok (t.setPc (t.target ra))
    | .error c => .error c

/-- RET: `pc` takes the byte at SP, SP is incremented (R181). -/
def execRet (s : State) : Host.Outcome State Fault Refusal :=
  s.complete (some opcRet) <|
    match s.stackTopByte with
    | .ok v => .ok ((s.setPc (zext9 v)).dropTop)
    | .error c => .error c

end Sys2Proof.Machine
end

