-- ==== Sys2Proof/Machine/System.lean ====
section
/-! DEFINITION. Machine control, immediate load and output: HLT, LDI, PRN (41_system_and_data.md). -/

namespace Sys2Proof.Machine

/-- HLT: `run <- HALTED`, `pc` kept (R130). -/
def execHlt (s : State) : Host.Outcome State Fault Refusal := .next (s.setRun .halted)

/-- LDI Ra, imm: the immediate byte goes to the register as it is (R131). -/
def execLdi (ra : Reg) (imm : Byte) (s : State) : Host.Outcome State Fault Refusal :=
  .next ((s.setReg ra imm).advance 3)

/-- PRN Ra: the register's byte is appended to `out` (R132). -/
def execPrn (ra : Reg) (s : State) : Host.Outcome State Fault Refusal :=
  .next ((s.output (s.getReg ra)).advance 2)

end Sys2Proof.Machine
end

