-- ==== Sys2Proof/Machine/Fetch.lean ====
section
/-! DEFINITION. Fetch, dispatch and the decode-time operand check: stages 1 to 3 of the cycle
(40_cycle_and_dispatch.md R110 to R113), in their order of fault priority (60_exceptions.md R210). -/

namespace Sys2Proof.Machine

/-- What the first three stages of a step give: an instruction to execute, or a fault to take with the opcode byte it
records. -/
inductive Fetched where
  | instr (i : Instr)
  | raised (opcode : Option Byte) (cause : FaultCause)
  deriving DecidableEq, Repr

/-- The fault that a decode error raises, with its `info` (R200, R203, R206). -/
def decodeErrorCause : DecodeError → FaultCause
  | .illegalOpcode ir => { kind := .illegalOpcode, info := ir.toNat }
  | .registerIndex op => { kind := .registerIndexFault, info := op.toNat }

/-- Stages 2 and 3 on the three fetched bytes (R112, R113). -/
def decodeStage (p : Params) (ir opA opB : Byte) : Fetched :=
  match decode p ir opA opB with
  | .ok i => .instr i
  | .error e => .raised (some ir) (decodeErrorCause e)

/-- Stages 1 to 3. The three reads are made in order at `pc`, `pc + 1`, `pc + 2`, mathematical integers that never
wrap; the first that fails raises AddressFault at its address, with no opcode if it is the opcode read (R111). -/
def State.fetchDecode (s : State) : Fetched :=
  let p : Int := s.pc.toNat
  match memRead s.mem p with
  | none => .raised none { kind := .addressFault, info := p }
  | some ir =>
    match memRead s.mem (p + 1) with
    | none => .raised (some ir) { kind := .addressFault, info := p + 1 }
    | some opA =>
      match memRead s.mem (p + 2) with
      | none => .raised (some ir) { kind := .addressFault, info := p + 2 }
      | some opB => decodeStage s.params ir opA opB

/-- Bytes written one after another from an address up; a write outside memory is left out (used by `withFetchWord`). -/
def State.placeBytes (s : State) (addr : Int) : List Byte → State
  | [] => s
  | b :: rest =>
    match memWrite s.mem addr b with
    | some m => State.placeBytes { s with mem := m } (addr + 1) rest
    | none => s

end Sys2Proof.Machine
end

