-- ==== Sys2Proof/Machine/Step.lean ====
section
/-! DEFINITION. One step of the Execution Engine (40_cycle_and_dispatch.md R110), and the placing of a table word where
the next step fetches. -/

namespace Sys2Proof.Machine

/-- One step: no step is defined unless `run` is RUNNING (R31); a fault of the first three stages is taken (R212); else
the instruction executes (R114). -/
def step (s : State) : Host.Outcome State Fault Refusal :=
  match s.run with
  | .halted => .fault .noStepWhenHalted
  | .faulted => .fault .noStepWhenFaulted
  | .running =>
    match s.fetchDecode with
    | .instr i => exec i s
    | .raised opcode cause => .next (s.raise opcode cause)

/-- `s` with a table word's three bytes at `pc`, in a core in which its opcode is a key: `ALU_EXT` is set where the word
is one of the optional ALU rows and `s` lacks it (assumption 2). -/
def State.withFetchWord (s : State) (nbits w : Nat) : State :=
  let t := s.placeBytes s.pc.toNat (tableBytes nbits w)
  { t with params := s.params.admitting (BitVec.ofNat 8 (w % 2 ^ nbits)) }

end Sys2Proof.Machine
end

