-- ==== Sys2Proof/Machine/RunLoop.lean ====
section
/-! DEFINITION. The run loop: steps one after another while `run` is RUNNING, from the reset-and-loaded state, and the
three kinds of run (40_cycle_and_dispatch.md R116). -/

namespace Sys2Proof.Machine

/-- The state after at most `fuel` steps: the loop goes on while a step is defined, that is while `run` is RUNNING, and
stays at the first state where none is (R116). The core has no time-out: the fuel is the model's own, as R217 allows. -/
def State.runSteps : Nat → State → State
  | 0, s => s
  | fuel + 1, s =>
    match step s with
    | .next t => State.runSteps fuel t
    | .fault _ | .refused _ => s

/-- The run of a program by a core with parameters `p`: reset, load, then the loop for at most `fuel` steps; none where
the image cannot be loaded (R116, R242). -/
def runProgram (p : Params) (program : List Byte) (fuel : Nat) : Option State :=
  ((State.resetWith p).load program).map (State.runSteps fuel)

/-- The run from `s` ends in `t`, the first state of it whose `run` is not RUNNING (R116). -/
def State.RunEndsIn (s t : State) : Prop := t.run ≠ .running ∧ ∃ fuel, s.runSteps fuel = t

/-- The run from `s` never ends (R116). -/
def State.RunsForever (s : State) : Prop := ∀ fuel, (s.runSteps fuel).run = .running

end Sys2Proof.Machine
end

