-- ==== Sys2Proof/Safety.lean ====
section
/-! DEFINITION. What counts as a safe run, the invariants of the machine, and the frame predicates in whose terms the
statements say what a step leaves alone. -/

namespace Sys2Proof.Machine

/-! ## Safe states and invariants -/

/-- A state of a safe run: the engine has not faulted (R116). -/
abbrev State.Safe (s : State) : Prop := s.run ≠ .faulted

/-- The machine's invariant: `pc` is one of 0 to 256 (R25), memory is in canonical form, the parameters are legal (R87),
and a fault record is present exactly in FAULTED (R31, R32). -/
abbrev State.Inv (s : State) : Prop :=
  s.pc.toNat ≤ 256 ∧ Memory.wf s.mem ∧ s.params.wf = true ∧ (s.run = .faulted ↔ s.fault.isSome = true)

/-- The cause a record gives holds of the state it was left in, kind by kind (the "raised when", "raised by" and "info"
columns of R200): faults being precise, the instruction, its operands and SP are still there to be looked at. -/
def FaultRecord.causeHolds (r : FaultRecord) (s : State) : Prop :=
  match r.kind with
  | .addressFault => 254 ≤ s.pc.toNat ∧ r.info = 256
  | .divisionByZero => ∃ ra rb : Reg,
      s.fetchDecode = .instr (.mod ra rb) ∧ s.getReg rb = 0 ∧ r.info = (s.getReg ra).toNat
  | .illegalOpcode => ∃ ir : Byte, r.opcode = some ir ∧ ir ∉ dispatchKeys s.params ∧ r.info = ir.toNat
  | .stackOverflow => s.sp = 0 ∧ r.info = 0 ∧
      ∃ ra : Reg, s.fetchDecode = .instr (.push ra) ∨ s.fetchDecode = .instr (.call ra)
  | .stackUnderflow => 0xF4 ≤ s.sp.toNat ∧ r.info = s.sp.toNat ∧
      (s.fetchDecode = .instr .ret ∨ ∃ ra : Reg, s.fetchDecode = .instr (.pop ra))
  | .registerIndexFault => ∃ (ir op : Byte) (i : Instr),
      r.opcode = some ir ∧ i.opcode s.params = some ir ∧ 7 < op.toNat ∧ r.info = op.toNat ∧
      ((1 ≤ i.registerOperands ∧ memRead s.mem (s.pc.toNat + 1) = some op) ∨
       (i.registerOperands = 2 ∧ memRead s.mem (s.pc.toNat + 2) = some op ∧
        ∃ opA : Byte, memRead s.mem (s.pc.toNat + 1) = some opA ∧ opA.toNat ≤ 7))

/-- A fault record tells the truth about the state it was left in: the opcode byte is the one at `pc` (none where `pc`
is no address), the `pc` is the state's, and the cause holds (R32, R200). -/
def State.RecordTrue (s : State) : Prop :=
  ∀ r, s.fault = some r → r.pcAtFault = s.pc ∧ r.opcode = memRead s.mem s.pc.toNat ∧ r.causeHolds s

/-! ## Frames -/

/-- Every register outside `ws` is unchanged. -/
def State.SameRegsBut (s t : State) (ws : List Reg) : Prop := ∀ r, r ∉ ws → t.getReg r = s.getReg r

/-- Every address reads as before, those outside memory included. -/
def State.SameMem (s t : State) : Prop := ∀ a : Int, memRead t.mem a = memRead s.mem a

/-- Every address but `addr` reads as before. -/
def State.SameMemBut (s t : State) (addr : Int) : Prop := ∀ a : Int, a ≠ addr → memRead t.mem a = memRead s.mem a

/-- The run state, the fault record and the parameters are unchanged. -/
def State.SameControl (s t : State) : Prop := t.run = s.run ∧ t.fault = s.fault ∧ t.params = s.params

/-- All that a register-to-register instruction leaves alone: every register but `ra`, the flags, the output, memory and
the control state; `pc` advances by `n` as an integer (R26, R27). -/
def State.OnlyReg (s t : State) (ra : Reg) (n : Nat) : Prop :=
  s.SameRegsBut t [ra] ∧ t.pc.toNat = s.pc.toNat + n ∧ t.fl = s.fl ∧ t.out = s.out ∧ s.SameMem t ∧ s.SameControl t

/-- All that a jump leaves alone: everything but `pc`. -/
def State.OnlyPc (s t : State) : Prop :=
  s.SameRegsBut t [] ∧ t.fl = s.fl ∧ t.out = s.out ∧ s.SameMem t ∧ s.SameControl t

/-- The registers an instruction may write (the "writes" column of R23). -/
def writtenRegs : Instr → List Reg
  | .hlt | .prn _ | .cmp _ _ | .jeq _ | .jne _ | .jmp _ => []
  | .ldi ra _ | .add ra _ | .mul ra _ | .addi ra _ | .sub ra _ | .mod ra _ | .not ra | .and ra _ | .or ra _
  | .xor ra _ | .shl ra _ | .shr ra _ => [ra]
  | .push _ | .call _ | .ret => [Config.spIndex]
  | .pop ra => [ra, Config.spIndex]

end Sys2Proof.Machine
end

