-- ==== Sys2Proof/Certificates/Slice0/Obligations.lean ====
section
/-! DEFINITION. The statements about the LS-8 core, each with the rule of spec/ it comes from. Where a statement rests
on something the spec marks as its own decision or as general knowledge, its docstring says so and names the log entry.
A premise `Memory.wf` is the model's own canonical form of memory (log entry 23), no rule of the spec: it rules out states
that no run reaches, as InvariantKeptByEveryStep states. A premise on `params` is about the field that the model adds to
State (log entry 1). -/

open Sys2Proof Sys2Proof.Machine

/-! ## Encoding and decoding -/

/-- Bytes written out from the tables of R86 and R89, one word for each of the 22 instructions, decode to the instruction
they stand for, and SUB's byte is illegal without `ALU_EXT`. The opcode numbers are the spec's from general knowledge (log
entry 6); ADDI's is the example byte of the spec's program P8, since R87 gives it none. -/
def Obligations.SpecWordsDecode : Prop :=
  decode Params.defaults 0x01 0xFF 0xFF = .ok .hlt ∧
  decode Params.defaults 0x82 0x03 0xFF = .ok (.ldi 3 0xFF) ∧
  decode Params.defaults 0x47 0x02 0xFF = .ok (.prn 2) ∧
  decode Params.defaults 0xA0 0x07 0x01 = .ok (.add 7 1) ∧
  decode Params.defaults 0xA2 0x00 0x06 = .ok (.mul 0 6) ∧
  decode Params.defaults 0x45 0x05 0x08 = .ok (.push 5) ∧
  decode Params.defaults 0x46 0x07 0x00 = .ok (.pop 7) ∧
  decode Params.defaults 0x50 0x01 0x47 = .ok (.call 1) ∧
  decode Params.defaults 0x11 0x82 0x09 = .ok .ret ∧
  decode Params.defaults 0xA7 0x00 0x02 = .ok (.cmp 0 2) ∧
  decode Params.defaults 0x55 0x02 0x00 = .ok (.jeq 2) ∧
  decode Params.defaults 0x56 0x06 0x00 = .ok (.jne 6) ∧
  decode Params.defaults 0x54 0x03 0x00 = .ok (.jmp 3) ∧
  decode { Params.defaults with opcAddi := some 0x2B } 0x2B 0x00 0x01 = .ok (.addi 0 1) ∧
  decode Params.allNumbered 0xA1 0x00 0x01 = .ok (.sub 0 1) ∧
  decode Params.allNumbered 0xA4 0x01 0x00 = .ok (.mod 1 0) ∧
  decode Params.allNumbered 0x69 0x02 0xFF = .ok (.not 2) ∧
  decode Params.allNumbered 0xA8 0x02 0x03 = .ok (.and 2 3) ∧
  decode Params.allNumbered 0xAA 0x03 0x04 = .ok (.or 3 4) ∧
  decode Params.allNumbered 0xAB 0x04 0x05 = .ok (.xor 4 5) ∧
  decode Params.allNumbered 0xAC 0x05 0x06 = .ok (.shl 5 6) ∧
  decode Params.allNumbered 0xAD 0x06 0x05 = .ok (.shr 6 5) ∧
  decode Params.defaults 0xA1 0x00 0x01 = .error (.illegalOpcode 0xA1)

/-- Every instruction of every legal core, with any bytes after it, decodes from its encoding; it has an encoding
exactly when its row exists (R80, R81, R84, R85, R88). -/
def Obligations.DecodeOfEncodeIsTheInstruction : Prop :=
  ∀ (p : Params) (i : Instr), p.wf = true →
    (encode p i).isSome = i.wellFormed p ∧
    ∀ bs rest : List Byte, encode p i = some bs → 2 ≤ rest.length → decodeBytes p (bs ++ rest) = some i

/-- What decodes has a row, and its encoding is exactly the first bytes that were fetched, as many as its width: no byte
sequence is read as an instruction with another encoding (R80, R82, R84). -/
def Obligations.EncodeOfDecodeIsTheFetchedBytes : Prop :=
  ∀ (p : Params) (ir opA opB : Byte) (i : Instr), decode p ir opA opB = .ok i →
    i.wellFormed p = true ∧ encode p i = some ([ir, opA, opB].take i.width)

/-- Dispatch is an exact match of the whole byte against the thirteen values, the eight optional ones when `ALU_EXT`,
and `OPC_ADDI` when it is given; in a legal core all keys are distinct; a byte that is no key is illegal (R88, R90). The
numbers are the spec's from general knowledge (log entry 6). -/
def Obligations.DispatchKeysAreTheTableBytes : Prop :=
  (∀ (p : Params) (ir : Byte), ir ∈ dispatchKeys p ↔
    ir ∈ ([0x01, 0x82, 0x47, 0xA0, 0xA2, 0x45, 0x46, 0x50, 0x11, 0xA7, 0x55, 0x56, 0x54] : List Byte) ∨
    (p.aluExt = true ∧ ir ∈ ([0xA1, 0xA4, 0x69, 0xA8, 0xAA, 0xAB, 0xAC, 0xAD] : List Byte)) ∨
    p.opcAddi = some ir) ∧
  (∀ p : Params, p.wf = true → (dispatchKeys p).Nodup) ∧
  (∀ (p : Params) (ir opA opB : Byte), decode p ir opA opB = .error (.illegalOpcode ir) ↔ ir ∉ dispatchKeys p)

/-- With the default parameters 243 of the 256 byte values are illegal opcodes, 0x00 among them (R90). The numbers are
the spec's from general knowledge (log entry 6). -/
def Obligations.DefaultCoreHas243IllegalBytes : Prop :=
  ((List.range 256).filter fun n => (dispatch Params.defaults (BitVec.ofNat 8 n)).isNone).length = 243 ∧
  (dispatch Params.defaults 0x00).isNone = true

/-- An encoding is as long as the instruction's width, and the two most significant bits of its first byte count its
operand bytes, for every instruction but ADDI, whose byte is a parameter (R82, R83). The numbers are the spec's from
general knowledge (log entry 6). -/
def Obligations.EncodedWidthAndOperandCount : Prop :=
  ∀ (p : Params) (i : Instr) (bs : List Byte), encode p i = some bs →
    bs.length = i.width ∧
    ((∀ ra rb, i ≠ .addi ra rb) → ∃ (b : Byte) (ops : List Byte), bs = b :: ops ∧ b.toNat / 64 = ops.length)

/-! ## The step -/

/-- When the three bytes at `pc` decode to an instruction, the step of a running machine is exec of it, with nothing
added around it (R110, R114). -/
def Obligations.StepRunsTheDecodedInstruction : Prop :=
  ∀ (s : State) (ir opA opB : Byte) (i : Instr), s.run = .running →
    memRead s.mem s.pc.toNat = some ir → memRead s.mem (s.pc.toNat + 1) = some opA →
    memRead s.mem (s.pc.toNat + 2) = some opB → decode s.params ir opA opB = .ok i →
    step s = exec i s

/-- After the three fetch reads, an opcode byte that is no key of the dispatch table raises IllegalOpcode, whatever the
operand bytes are (R112, R203; a fault, not a stall, by decision D7 of the spec, log entry 11). -/
def Obligations.NonKeyByteRaisesIllegalOpcode : Prop :=
  ∀ (s : State) (ir opA opB : Byte), s.run = .running →
    memRead s.mem s.pc.toNat = some ir → memRead s.mem (s.pc.toNat + 1) = some opA →
    memRead s.mem (s.pc.toNat + 2) = some opB → ir ∉ dispatchKeys s.params →
    step s = .next (s.raise (some ir) { kind := .illegalOpcode, info := ir.toNat })

/-- After a hit, the operand check comes before any part of the instruction: operand A and then operand B, where the
selected instruction uses it as a register index, raises RegisterIndexFault above 7, with the byte as `info`; else an
instruction with that opcode executes. Bytes that are not register indices are not checked (R113). -/
def Obligations.OperandCheckAfterDispatch : Prop :=
  ∀ (s : State) (ir opA opB : Byte), s.run = .running →
    memRead s.mem s.pc.toNat = some ir → memRead s.mem (s.pc.toNat + 1) = some opA →
    memRead s.mem (s.pc.toNat + 2) = some opB → ir ∈ dispatchKeys s.params →
    ∃ i : Instr, i.opcode s.params = some ir ∧
      (1 ≤ i.registerOperands → 7 < opA.toNat →
        step s = .next (s.raise (some ir) { kind := .registerIndexFault, info := opA.toNat })) ∧
      ((1 ≤ i.registerOperands → opA.toNat ≤ 7) → i.registerOperands = 2 → 7 < opB.toNat →
        step s = .next (s.raise (some ir) { kind := .registerIndexFault, info := opB.toNat })) ∧
      ((1 ≤ i.registerOperands → opA.toNat ≤ 7) → (i.registerOperands = 2 → opB.toNat ≤ 7) →
        ∃ j : Instr, decode s.params ir opA opB = .ok j ∧ j.opcode s.params = some ir ∧
          j.registerOperands = i.registerOperands ∧ step s = exec j s)

/-- The three fetch reads are unconditional: at 254, 255 and 256 every step raises AddressFault at address 256, with the
opcode byte recorded unless its own read faulted, whatever the bytes there are (R111, the reading of decision D6, log
entry 11). -/
def Obligations.FetchPastMemoryRaisesAddressFault : Prop :=
  ∀ s : State, s.run = .running → 254 ≤ s.pc.toNat → s.pc.toNat ≤ 256 →
    step s = .next (s.raise (memRead s.mem s.pc.toNat) { kind := .addressFault, info := 256 }) ∧
    (memRead s.mem s.pc.toNat = none ↔ s.pc.toNat = 256)

/-- Faults are precise: a step that faults changes no register, no cell, not `pc`, not `FL` and not `out`, and no
instruction starts after it (R211). -/
def Obligations.FaultsArePrecise : Prop :=
  ∀ s t : State, s.run = .running → step s = .next t → t.run = .faulted →
    t = { s with run := .faulted, fault := t.fault } ∧ ∀ u, step t ≠ .next u

/-- A step that faults leaves a record of the `pc` it started at and of the opcode byte there, none where `pc` is no
address (R32, R212, with decisions D8 and D9 of the spec; log entry 12). -/
def Obligations.FaultEntryWritesTheRecord : Prop :=
  ∀ s t : State, s.run = .running → step s = .next t → t.run = .faulted →
    ∃ (k : FaultKind) (info : Int),
      t.fault = some { kind := k, opcode := memRead s.mem s.pc.toNat, pcAtFault := s.pc, info := info }

/-- Every step keeps the fault record true: kind by kind, the record a step leaves names the opcode, the `pc`, the
instruction and the value that the table of R200 says, of the state it is left in; for RegisterIndexFault the opcode is a
key and the byte is one that its instruction uses as a register index, operand A before B (R32, R200 to R206, R113). The
premise is the invariant of the next statement, with the model's own choices in it (log entries 1 and 23). -/
def Obligations.FaultRecordStaysTrue : Prop :=
  ∀ s t : State, s.Inv → s.RecordTrue → step s = .next t → t.RecordTrue

/-- Every step keeps the invariant: `pc` at most 256 and a fault record exactly in FAULTED (R25, R27, R31, R32), legal
parameters (R87), which are in State by the model's choice (log entry 1), and memory in canonical form, which is the
model's own representation and no rule of the spec (log entry 23). -/
def Obligations.InvariantKeptByEveryStep : Prop :=
  ∀ s t : State, s.Inv → step s = .next t → t.Inv

/-- The reset state of every legal core meets both invariants (R37, R240); that memory is in canonical form and that the
parameters are in State are the model's choices (log entries 23 and 1). -/
def Obligations.ResetMeetsTheInvariants : Prop :=
  ∀ p : Params, p.wf = true → (State.resetWith p).Inv ∧ (State.resetWith p).RecordTrue

/-- A step of a running machine always answers a next state: no instruction, no byte and no fault stops the model
short of HALTED and FAULTED (R110, R116). -/
def Obligations.RunningStepAnswersNextState : Prop :=
  ∀ s : State, s.run = .running → ∃ t, step s = .next t

/-- The transitions of `run`: HLT alone reaches HALTED, a fault alone reaches FAULTED and leaves a record, every other
completed instruction stays RUNNING; from HALTED and FAULTED there is no step, and reset leaves them (R31, with its
decision D8; log entry 12). So there are exactly three kinds of run: a run ends in one state, HALTED or FAULTED, or it
never ends, and not both (R116); the loop's fuel is the model's own (log entry 25). -/
def Obligations.RunStateTransitions : Prop :=
  (∀ s t : State, s.Inv → s.run = .running → step s = .next t →
    (t.run = .halted ↔ s.fetchDecode = .instr .hlt) ∧ (t.run = .faulted ↔ t.fault.isSome = true)) ∧
  (∀ s : State, s.run ≠ .running → ∀ t, step s ≠ .next t) ∧
  (∀ s : State, s.hostReset.run = .running) ∧
  (∀ s : State, s.RunsForever ∨ ∃ t, s.RunEndsIn t) ∧
  (∀ s t : State, s.RunEndsIn t →
    (t.run = .halted ∨ t.run = .faulted) ∧ ¬ s.RunsForever ∧ ∀ u, s.RunEndsIn u → u = t)

/-- The names under which the model stops in the two terminal states; that the stop is a host fault is the model's own
choice (log entry 4), for R31's "no step is defined from them". -/
def Obligations.TerminalStatesStopByName : Prop :=
  ∀ s : State, (s.run = .halted → step s = .fault .noStepWhenHalted) ∧
    (s.run = .faulted → step s = .fault .noStepWhenFaulted)

/-! ## Machine control, immediate load, output -/

/-- HLT sets `run` to HALTED and changes nothing else; that `pc` stays is decision D20 of the spec (R130, log entry 22). -/
def Obligations.HltHaltsAndKeepsAllElse : Prop :=
  ∀ s : State, ∃ t, exec .hlt s = .next t ∧ t.run = .halted ∧ t.pc = s.pc ∧ s.SameRegsBut t [] ∧ t.fl = s.fl ∧
    t.out = s.out ∧ s.SameMem t ∧ t.fault = s.fault ∧ t.params = s.params

/-- LDI puts the immediate byte in its register, R7 included, and advances `pc` by 3; `pc` is at most 253 wherever an
instruction executes (R131, R27). -/
def Obligations.LdiLoadsTheImmediate : Prop :=
  ∀ (ra : Reg) (imm : Byte) (s : State), s.pc.toNat ≤ 253 →
    ∃ t, exec (.ldi ra imm) s = .next t ∧ t.getReg ra = imm ∧ s.OnlyReg t ra 3

/-- PRN appends its register's byte to `out` and advances `pc` by 2 (R132). -/
def Obligations.PrnAppendsToOutput : Prop :=
  ∀ (ra : Reg) (s : State), s.pc.toNat ≤ 253 →
    ∃ t, exec (.prn ra) s = .next t ∧ t.out = s.out ++ [s.getReg ra] ∧ t.pc.toNat = s.pc.toNat + 2 ∧
      s.SameRegsBut t [] ∧ t.fl = s.fl ∧ s.SameMem t ∧ s.SameControl t

/-! ## Arithmetic and logic -/

/-- The ten ALU functions on all operands (R140 to R149); DivisionByZero comes from MOD alone, for every dividend. The
wrap modulo 256 is decision D1 and the corner cases decision D16 of the spec (log entry 7). -/
def Obligations.AluFunctionsCompute : Prop :=
  ∀ a b : Byte,
    (∃ v, alu .add a b = .ok v ∧ v.toNat = (a.toNat + b.toNat) % 256) ∧
    (∃ v, alu .sub a b = .ok v ∧ (v.toNat : Int) = ((a.toNat : Int) - b.toNat) % 256) ∧
    (∃ v, alu .mul a b = .ok v ∧ v.toNat = (a.toNat * b.toNat) % 256) ∧
    (∃ v, alu .and a b = .ok v ∧ ∀ k < 8, v.getLsbD k = (a.getLsbD k && b.getLsbD k)) ∧
    (∃ v, alu .or a b = .ok v ∧ ∀ k < 8, v.getLsbD k = (a.getLsbD k || b.getLsbD k)) ∧
    (∃ v, alu .xor a b = .ok v ∧ ∀ k < 8, v.getLsbD k = (a.getLsbD k ^^ b.getLsbD k)) ∧
    (∃ v, alu .not a b = .ok v ∧ v.toNat = 255 - a.toNat) ∧
    (∃ v, alu .shl a b = .ok v ∧ v.toNat = (a.toNat * 2 ^ b.toNat) % 256) ∧
    (∃ v, alu .shr a b = .ok v ∧ v.toNat = a.toNat / 2 ^ b.toNat) ∧
    (b ≠ 0 → ∃ v, alu .mod a b = .ok v ∧ v.toNat = a.toNat % b.toNat) ∧
    (b = 0 → alu .mod a b = .error { kind := .divisionByZero, info := a.toNat })

/-- ADD adds modulo 256 and advances by 3; the same register may be both operands (R150, R140; wrap: log entry 7). -/
def Obligations.AddAddsModulo256 : Prop :=
  ∀ (ra rb : Reg) (s : State), s.pc.toNat ≤ 253 →
    ∃ t, exec (.add ra rb) s = .next t ∧
      (t.getReg ra).toNat = ((s.getReg ra).toNat + (s.getReg rb).toNat) % 256 ∧ s.OnlyReg t ra 3

/-- MUL keeps the low 8 bits of the product and advances by 3 (R151, R142; wrap: log entry 7). -/
def Obligations.MulMultipliesModulo256 : Prop :=
  ∀ (ra rb : Reg) (s : State), s.pc.toNat ≤ 253 →
    ∃ t, exec (.mul ra rb) s = .next t ∧
      (t.getReg ra).toNat = ((s.getReg ra).toNat * (s.getReg rb).toNat) % 256 ∧ s.OnlyReg t ra 3

/-- ADDI adds a register, not an immediate, and advances by 2, not 3: the literal row of the source (R152, decision D4
of the spec, log entry 17). -/
def Obligations.AddiAddsARegisterAndAdvancesTwo : Prop :=
  ∀ (ra rb : Reg) (s : State), s.pc.toNat ≤ 253 →
    ∃ t, exec (.addi ra rb) s = .next t ∧
      (t.getReg ra).toNat = ((s.getReg ra).toNat + (s.getReg rb).toNat) % 256 ∧ s.OnlyReg t ra 2

/-- SUB subtracts modulo 256 and advances by 3 (R153, R141; wrap: log entry 7). -/
def Obligations.SubSubtractsModulo256 : Prop :=
  ∀ (ra rb : Reg) (s : State), s.pc.toNat ≤ 253 →
    ∃ t, exec (.sub ra rb) s = .next t ∧
      ((t.getReg ra).toNat : Int) = (((s.getReg ra).toNat : Int) - (s.getReg rb).toNat) % 256 ∧ s.OnlyReg t ra 3

/-- MOD by a register that is not 0 leaves the unsigned remainder and advances by 3 (R154, R149). -/
def Obligations.ModLeavesTheRemainder : Prop :=
  ∀ (ra rb : Reg) (s : State), s.pc.toNat ≤ 253 → s.getReg rb ≠ 0 →
    ∃ t, exec (.mod ra rb) s = .next t ∧
      (t.getReg ra).toNat = (s.getReg ra).toNat % (s.getReg rb).toNat ∧ s.OnlyReg t ra 3

/-- MOD by a register that is 0 raises DivisionByZero with the dividend recorded, for every dividend, and writes no
register (R154, R202). -/
def Obligations.ModByZeroRaisesDivisionByZero : Prop :=
  ∀ (ra rb : Reg) (s : State), s.getReg rb = 0 →
    exec (.mod ra rb) s =
      .next { s with run := .faulted, fault := some { kind := .divisionByZero, opcode := some opcMod, pcAtFault := s.pc, info := (s.getReg ra).toNat } }

/-- NOT complements its register within 8 bits and advances by 2 (R155, R146). -/
def Obligations.NotComplements : Prop :=
  ∀ (ra : Reg) (s : State), s.pc.toNat ≤ 253 →
    ∃ t, exec (.not ra) s = .next t ∧ (t.getReg ra).toNat = 255 - (s.getReg ra).toNat ∧ s.OnlyReg t ra 2

/-- AND, OR and XOR work bit by bit and advance by 3 (R156, R157, R158). -/
def Obligations.AndOrXorWorkBitByBit : Prop :=
  ∀ (ra rb : Reg) (s : State), s.pc.toNat ≤ 253 →
    (∃ t, exec (.and ra rb) s = .next t ∧ s.OnlyReg t ra 3 ∧
      ∀ k < 8, (t.getReg ra).getLsbD k = ((s.getReg ra).getLsbD k && (s.getReg rb).getLsbD k)) ∧
    (∃ t, exec (.or ra rb) s = .next t ∧ s.OnlyReg t ra 3 ∧
      ∀ k < 8, (t.getReg ra).getLsbD k = ((s.getReg ra).getLsbD k || (s.getReg rb).getLsbD k)) ∧
    (∃ t, exec (.xor ra rb) s = .next t ∧ s.OnlyReg t ra 3 ∧
      ∀ k < 8, (t.getReg ra).getLsbD k = ((s.getReg ra).getLsbD k ^^ (s.getReg rb).getLsbD k))

/-- SHL and SHR are logical and shift by the whole value of register B, so 8 or more gives 0; both advance by 3 (R159,
R160; that the amount is not masked is decision D16 of the spec, log entry 7). -/
def Obligations.ShiftsTakeTheWholeAmount : Prop :=
  ∀ (ra rb : Reg) (s : State), s.pc.toNat ≤ 253 →
    (∃ t, exec (.shl ra rb) s = .next t ∧ s.OnlyReg t ra 3 ∧
      (t.getReg ra).toNat = ((s.getReg ra).toNat * 2 ^ (s.getReg rb).toNat) % 256 ∧
      (8 ≤ (s.getReg rb).toNat → t.getReg ra = 0)) ∧
    (∃ t, exec (.shr ra rb) s = .next t ∧ s.OnlyReg t ra 3 ∧
      (t.getReg ra).toNat = (s.getReg ra).toNat / 2 ^ (s.getReg rb).toNat ∧
      (8 ≤ (s.getReg rb).toNat → t.getReg ra = 0))

/-! ## Stack and subroutine -/

/-- PUSH with SP not 0: SP one lower, and the cell at the new SP holds the register's value AFTER the decrement, so
`PUSH R7` stores the new SP; nothing else changes (R170). -/
def Obligations.PushStoresBelowSp : Prop :=
  ∀ (ra : Reg) (s : State), s.pc.toNat ≤ 253 → Memory.wf s.mem → s.sp ≠ 0 →
    ∃ t, exec (.push ra) s = .next t ∧ t.sp.toNat + 1 = s.sp.toNat ∧
      memRead t.mem (s.sp - 1).toNat = some (t.getReg ra) ∧ s.SameMemBut t (s.sp - 1).toNat ∧
      s.SameRegsBut t [7] ∧ t.pc.toNat = s.pc.toNat + 2 ∧ t.fl = s.fl ∧ t.out = s.out ∧ s.SameControl t

/-- PUSH and CALL at SP = 0 raise StackOverflow with SP = 0 recorded, and SP, memory and `pc` stay (R170, R180, R204;
the bound is decision D10 of the spec, log entry 13). -/
def Obligations.PushAndCallAtZeroOverflow : Prop :=
  ∀ (ra : Reg) (s : State), s.sp = 0 →
    exec (.push ra) s =
      .next { s with run := .faulted, fault := some { kind := .stackOverflow, opcode := some opcPush, pcAtFault := s.pc, info := 0 } } ∧
    exec (.call ra) s =
      .next { s with run := .faulted, fault := some { kind := .stackOverflow, opcode := some opcCall, pcAtFault := s.pc, info := 0 } }

/-- POP below the top: the register takes the byte at SP and SP goes up by 1; `POP R7` ends as that byte plus 1 modulo
256; memory keeps the popped cell (R171). -/
def Obligations.PopLoadsFromSp : Prop :=
  ∀ (ra : Reg) (s : State), s.pc.toNat ≤ 253 → s.sp.toNat < 0xF4 →
    ∃ t v, exec (.pop ra) s = .next t ∧ memRead s.mem s.sp.toNat = some v ∧
      (ra ≠ 7 → t.getReg ra = v ∧ t.sp.toNat = s.sp.toNat + 1) ∧ (ra = 7 → t.sp.toNat = (v.toNat + 1) % 256) ∧
      s.SameRegsBut t [ra, 7] ∧ t.pc.toNat = s.pc.toNat + 2 ∧ t.fl = s.fl ∧ t.out = s.out ∧ s.SameMem t ∧
      s.SameControl t

/-- POP and RET at SP 0xF4 or above raise StackUnderflow with SP recorded, and nothing else changes (R171, R181, R205;
the bound is decision D10 of the spec, log entry 13). -/
def Obligations.PopAndRetOnEmptyStackUnderflow : Prop :=
  ∀ (ra : Reg) (s : State), 0xF4 ≤ s.sp.toNat →
    exec (.pop ra) s =
      .next { s with run := .faulted, fault := some { kind := .stackUnderflow, opcode := some opcPop, pcAtFault := s.pc, info := s.sp.toNat } } ∧
    exec .ret s =
      .next { s with run := .faulted, fault := some { kind := .stackUnderflow, opcode := some opcRet, pcAtFault := s.pc, info := s.sp.toNat } }

/-- CALL with SP not 0: SP one lower, the cell at the new SP holds `pc + 2`, and `pc` takes the register's value AFTER
the decrement, so `CALL R7` jumps to the new SP (R180; `pc + 2` by conflict C1, log entry 18). -/
def Obligations.CallPushesReturnAddressAndJumps : Prop :=
  ∀ (ra : Reg) (s : State), s.pc.toNat ≤ 253 → Memory.wf s.mem → s.sp ≠ 0 →
    ∃ t v, exec (.call ra) s = .next t ∧ t.sp.toNat + 1 = s.sp.toNat ∧
      memRead t.mem (s.sp - 1).toNat = some v ∧ v.toNat = s.pc.toNat + 2 ∧ s.SameMemBut t (s.sp - 1).toNat ∧
      t.pc.toNat = (t.getReg ra).toNat ∧ s.SameRegsBut t [7] ∧ t.fl = s.fl ∧ t.out = s.out ∧ s.SameControl t

/-- RET below the top: `pc` takes the byte at SP, whatever put it there, and SP goes up by 1 (R181). -/
def Obligations.RetJumpsToThePoppedByte : Prop :=
  ∀ s : State, s.sp.toNat < 0xF4 →
    ∃ t v, exec .ret s = .next t ∧ memRead s.mem s.sp.toNat = some v ∧ t.pc.toNat = v.toNat ∧
      t.sp.toNat = s.sp.toNat + 1 ∧ s.SameRegsBut t [7] ∧ t.fl = s.fl ∧ t.out = s.out ∧ s.SameMem t ∧ s.SameControl t

/-- CALL followed by RET resumes after the CALL: after a CALL at `pc` with SP in 1 to 0xF4, a RET in any state with that
SP less 1 and the return cell still in place leaves `pc + 2` and the SP of before (R181's property, an inference the
spec marks as its own). -/
def Obligations.CallThenRetResumesAfterTheCall : Prop :=
  ∀ (ra : Reg) (s t u : State), s.pc.toNat ≤ 253 → Memory.wf s.mem → s.sp ≠ 0 → s.sp.toNat ≤ 0xF4 →
    exec (.call ra) s = .next t → u.sp = t.sp → memRead u.mem u.sp.toNat = memRead t.mem u.sp.toNat →
    ∃ w, exec .ret u = .next w ∧ w.pc.toNat = s.pc.toNat + 2 ∧ w.sp = s.sp

/-- PUSH then POP gives the value back, in any register but R7 at either end, while the cell is in place (example S2 of
95_test_vectors.md, with its correction for R7). -/
def Obligations.PushThenPopGivesTheValueBack : Prop :=
  ∀ (ra rb : Reg) (s t u : State), ra ≠ 7 → rb ≠ 7 → Memory.wf s.mem → s.sp ≠ 0 → s.sp.toNat ≤ 0xF4 →
    exec (.push ra) s = .next t → u.sp = t.sp → memRead u.mem u.sp.toNat = memRead t.mem u.sp.toNat →
    ∃ w, exec (.pop rb) u = .next w ∧ w.getReg rb = s.getReg ra ∧ w.sp = s.sp

/-- A POP into a register other than R7 and a RET, when they complete, leave SP at most 0xF4 (R205). -/
def Obligations.CompletedPopLeavesSpAtMostTop : Prop :=
  ∀ (i : Instr) (s t : State), s.run = .running → (i = .ret ∨ ∃ ra, ra ≠ 7 ∧ i = .pop ra) →
    exec i s = .next t → t.run ≠ .faulted → t.sp.toNat ≤ 0xF4

/-- A byte that PUSH stores where the next step fetches its opcode is the opcode that step dispatches on: no fence, no
prefetch (R62, an inference the spec marks as its own). -/
def Obligations.PushedByteIsTheNextOpcode : Prop :=
  ∀ (ra : Reg) (s t : State) (opA opB : Byte), Memory.wf s.mem → s.sp ≠ 0 → exec (.push ra) s = .next t →
    (s.sp - 1).toNat = t.pc.toNat → memRead t.mem (t.pc.toNat + 1) = some opA →
    memRead t.mem (t.pc.toNat + 2) = some opB →
    t.fetchDecode = decodeStage t.params (t.getReg ra) opA opB

/-! ## Compare and jumps -/

/-- CMP sets EQUAL, LESS_THAN or GREATER_THAN as its first operand equals, is below or is above its second, unsigned,
never UNSET, and changes nothing else but `pc`, by 3 (R190; unsigned is decision D14 of the spec, log entry 7). -/
def Obligations.CmpSetsTheFlags : Prop :=
  ∀ (ra rb : Reg) (s : State), s.pc.toNat ≤ 253 →
    ∃ t, exec (.cmp ra rb) s = .next t ∧
      (t.fl = .equal ↔ s.getReg ra = s.getReg rb) ∧
      (t.fl = .lessThan ↔ (s.getReg ra).toNat < (s.getReg rb).toNat) ∧
      (t.fl = .greaterThan ↔ (s.getReg rb).toNat < (s.getReg ra).toNat) ∧ t.fl ≠ .unset ∧
      t.pc.toNat = s.pc.toNat + 3 ∧ s.SameRegsBut t [] ∧ t.out = s.out ∧ s.SameMem t ∧ s.SameControl t

/-- JEQ jumps exactly when `FL` is EQUAL, else falls through by 2 (R191). -/
def Obligations.JeqJumpsExactlyWhenEqual : Prop :=
  ∀ (ra : Reg) (s : State), s.pc.toNat ≤ 253 →
    ∃ t, exec (.jeq ra) s = .next t ∧ s.OnlyPc t ∧
      t.pc.toNat = if s.fl = .equal then (s.getReg ra).toNat else s.pc.toNat + 2

/-- JNE jumps exactly when `FL` is not EQUAL, UNSET included, else falls through by 2 (R192). -/
def Obligations.JneJumpsExactlyWhenNotEqual : Prop :=
  ∀ (ra : Reg) (s : State), s.pc.toNat ≤ 253 →
    ∃ t, exec (.jne ra) s = .next t ∧ s.OnlyPc t ∧
      t.pc.toNat = if s.fl = .equal then s.pc.toNat + 2 else (s.getReg ra).toNat

/-- JMP jumps to its register's value, zero-extended (R193). -/
def Obligations.JmpJumps : Prop :=
  ∀ (ra : Reg) (s : State), ∃ t, exec (.jmp ra) s = .next t ∧ s.OnlyPc t ∧ t.pc.toNat = (s.getReg ra).toNat

/-! ## Whole-machine rules -/

/-- Only CMP writes `FL`, always with one of the three values, and only JEQ and JNE read it: any other instruction does
the same whatever `FL` was, but for `FL` itself, and CMP does the same with `FL` included (R29). -/
def Obligations.OnlyCmpWritesAndOnlyJumpsReadFlags : Prop :=
  (∀ (i : Instr) (s t : State), exec i s = .next t → (∀ ra rb, i ≠ .cmp ra rb) → t.fl = s.fl) ∧
  (∀ (ra rb : Reg) (s t : State), exec (.cmp ra rb) s = .next t → t.fl ≠ .unset) ∧
  (∀ (i : Instr) (s t : State) (f : Flags), exec i s = .next t → (∀ ra, i ≠ .jeq ra) → (∀ ra, i ≠ .jne ra) →
    ∃ u, exec i (s.setFl f) = .next u ∧ u.setFl t.fl = t ∧ ((∃ ra rb, i = .cmp ra rb) → u = t))

/-- `FL` persists until the next compare: a step changes it only if it runs a CMP, which never leaves UNSET, and once it
is not UNSET it is never UNSET again; it is UNSET at reset, before the first CMP (R28). -/
def Obligations.FlagsPersistUntilTheNextCompare : Prop :=
  (∀ s t : State, step s = .next t →
    ((∀ ra rb, s.fetchDecode ≠ .instr (.cmp ra rb)) → t.fl = s.fl) ∧
    (∀ ra rb, s.fetchDecode = .instr (.cmp ra rb) → t.fl ≠ .unset) ∧ (s.fl ≠ .unset → t.fl ≠ .unset)) ∧
  ∀ s : State, s.hostReset.fl = .unset

/-- Only PUSH and CALL change memory, and only the cell at SP - 1 (R34, R53). -/
def Obligations.OnlyPushAndCallWriteMemory : Prop :=
  ∀ (i : Instr) (s t : State) (a : Int), Memory.wf s.mem → exec i s = .next t →
    memRead t.mem a ≠ memRead s.mem a →
    (∃ ra, i = .push ra ∨ i = .call ra) ∧ s.sp ≠ 0 ∧ a = (s.sp - 1).toNat

/-- Data memory is read by POP and RET alone, and only at SP (R34, R53). An instruction other than PUSH and CALL does the
same in any memory, except that POP and RET need the cell at SP to hold the same byte. PUSH and CALL do the same in any
memory too, and store the same byte into it at SP - 1, changing no other cell, or nothing at all where they overflow at
SP = 0; that both memories are in canonical form is the model's own representation (log entry 23). -/
def Obligations.OnlyPopAndRetReadData : Prop :=
  (∀ (i : Instr) (s t : State) (m : Memory), (∀ ra, i ≠ .push ra) → (∀ ra, i ≠ .call ra) →
    ((i = .ret ∨ ∃ ra, i = .pop ra) → memRead m s.sp.toNat = memRead s.mem s.sp.toNat) →
    exec i s = .next t → exec i { s with mem := m } = .next { t with mem := m }) ∧
  (∀ (i : Instr) (s t : State) (m : Memory), (∃ ra, i = .push ra ∨ i = .call ra) →
    Memory.wf s.mem → Memory.wf m → exec i s = .next t →
    ∃ m', exec i { s with mem := m } = .next { t with mem := m' } ∧ (s.sp = 0 → m' = m) ∧
      (s.sp ≠ 0 → memRead m' (s.sp - 1).toNat = memRead t.mem (s.sp - 1).toNat ∧
        ∀ a : Int, a ≠ (s.sp - 1).toNat → memRead m' a = memRead m a))

/-- Each step that runs a PRN appends one byte, its register's value; every other step leaves `out` as it was (R33). -/
def Obligations.OutputGrowsByPrnAlone : Prop :=
  ∀ s t : State, step s = .next t →
    (∀ ra, s.fetchDecode = .instr (.prn ra) → t.out = s.out ++ [s.getReg ra]) ∧
    ((∀ ra, s.fetchDecode ≠ .instr (.prn ra)) → t.out = s.out)

/-- No instruction writes a register outside the "writes" column of R23. -/
def Obligations.OnlyTableRegistersAreWritten : Prop :=
  ∀ (i : Instr) (s t : State), exec i s = .next t → s.SameRegsBut t (writtenRegs i)

/-- How each instruction sets `pc`, and that a faulting one leaves it (the table of R26; ADDI's 2 is decision D4 and
HLT's unchanged `pc` decision D20 of the spec). For CALL the target register is read after the decrement (R180). -/
def Obligations.PcAdvanceTable : Prop :=
  ∀ (i : Instr) (s t : State), s.run = .running → s.pc.toNat ≤ 253 → exec i s = .next t →
    (t.run = .faulted → t.pc = s.pc) ∧
    (t.run ≠ .faulted →
      match i with
      | .hlt => t.pc = s.pc
      | .ldi _ _ | .add _ _ | .mul _ _ | .cmp _ _ | .sub _ _ | .and _ _ | .or _ _ | .xor _ _ | .shl _ _ | .shr _ _
      | .mod _ _ => t.pc.toNat = s.pc.toNat + 3
      | .prn _ | .push _ | .pop _ | .not _ | .addi _ _ => t.pc.toNat = s.pc.toNat + 2
      | .call ra => t.pc.toNat = (t.getReg ra).toNat
      | .ret => ∃ v, memRead s.mem s.sp.toNat = some v ∧ t.pc.toNat = v.toNat
      | .jeq ra => t.pc.toNat = if s.fl = .equal then (s.getReg ra).toNat else s.pc.toNat + 2
      | .jne ra => t.pc.toNat = if s.fl ≠ .equal then (s.getReg ra).toNat else s.pc.toNat + 2
      | .jmp ra => t.pc.toNat = (s.getReg ra).toNat)

/-- The dispatch table is a constant of the core: no step, no reset and no load changes which byte selects which
instruction (R35). The parameters that shape it are a field of the model's own State (log entries 1 and 15). -/
def Obligations.DispatchTableNeverChanges : Prop :=
  (∀ s t : State, step s = .next t → ∀ ir opA opB, decode t.params ir opA opB = decode s.params ir opA opB) ∧
  (∀ s : State, s.hostReset.params = s.params) ∧
  (∀ (s t : State) (program : List Byte), s.load program = some t → t.params = s.params)

/-- After an enabled ADDI with operand byte B = 0x01 the next step executes that operand byte, HLT, and halts two bytes
after the ADDI: control flow desynchronises as R152 and R251 say (an inference the spec marks as its own; log entry 17). -/
def Obligations.AddiOperandByteRunsAsTheNextOpcode : Prop :=
  ∀ (s : State) (c opA : Byte), s.run = .running → s.params.wf = true → s.params.opcAddi = some c →
    s.pc.toNat ≤ 251 → opA.toNat ≤ 7 → memRead s.mem s.pc.toNat = some c →
    memRead s.mem (s.pc.toNat + 1) = some opA → memRead s.mem (s.pc.toNat + 2) = some 0x01 →
    ∃ t u, step s = .next t ∧ t.run = .running ∧ t.pc.toNat = s.pc.toNat + 2 ∧ step t = .next u ∧ u.run = .halted ∧
      u.pc = t.pc

/-! ## Memory, reset and load -/

/-- Both accessors succeed exactly at the addresses 0 to 255 and raise AddressFault with the address at every other
integer, negative ones included (R51). -/
def Obligations.AccessorsFailOutsideMemory : Prop :=
  ∀ (s : State) (addr : Int) (v : Byte),
    (0 ≤ addr ∧ addr ≤ 255 → (∃ w, s.loadByte addr = .ok w) ∧ ∃ t, s.storeByte addr v = .ok t) ∧
    (addr < 0 ∨ 256 ≤ addr →
      s.loadByte addr = .error { kind := .addressFault, info := addr } ∧
      s.storeByte addr v = .error { kind := .addressFault, info := addr })

/-- A write changes its own cell and no other, and a read returns the last value written (R57). The clause that a write
keeps memory's canonical form is about the model's own representation, not a rule of the spec (log entry 23). -/
def Obligations.ReadReturnsTheLastWrite : Prop :=
  ∀ (s t : State) (addr : Int) (v : Byte), Memory.wf s.mem → s.storeByte addr v = .ok t →
    Memory.wf t.mem ∧ t.loadByte addr = .ok v ∧ (∀ a, a ≠ addr → t.loadByte a = s.loadByte a) ∧
    { t with mem := s.mem } = s

/-- The load places the program's bytes at 0, 1, 2, ... and changes nothing else; the cells after it read 0 as after
reset (R242; the zeros are decision D13 of the spec, log entry 5; memory's canonical form is the model's own
representation, log entry 23). -/
def Obligations.LoadPlacesTheProgram : Prop :=
  ∀ (p : Params) (program : List Byte), program.length ≤ 256 →
    ∃ t, (State.resetWith p).load program = some t ∧ Memory.wf t.mem ∧
      (∀ (k : Nat) (b : Byte), program[k]? = some b → memRead t.mem k = some b) ∧
      (∀ k : Nat, program.length ≤ k → k ≤ 255 → memRead t.mem k = some 0) ∧
      { t with mem := [] } = State.resetWith p

/-- An image of more than 256 bytes is not loaded: its 257th write fails (R243; that the model answers no state is its
own choice, log entry 14). -/
def Obligations.OversizeImageIsNotLoaded : Prop :=
  ∀ (s : State) (program : List Byte), 256 < program.length → s.load program = none

/-- Reset, from any state, starts execution at address 0 with the engine running (R241). -/
def Obligations.ResetStartsRunningAtZero : Prop :=
  (State.reset.pc = 0 ∧ State.reset.run = .running) ∧ ∀ s : State, s.hostReset.pc = 0 ∧ s.hostReset.run = .running

/-- Every component of the state of R20 after a reset from any state: SP 0xF4; `pc` 0; `run` RUNNING; x[0] to x[6], memory
and `FL` at the values of decision D13 of the spec (log entry 5); no record, no output; nothing of the state before
survives (R37, R240). The parameters do, being constants of the core and not state (log entry 15, DEDUCED). -/
def Obligations.ResetValues : Prop :=
  ∀ s : State, s.hostReset.sp = 0xF4 ∧ (∀ r : Reg, r ≠ 7 → s.hostReset.getReg r = 0) ∧ s.hostReset.pc = 0 ∧
    s.hostReset.fl = .unset ∧ s.hostReset.run = .running ∧ s.hostReset.fault = none ∧ s.hostReset.out = [] ∧
    (∀ a : Int, 0 ≤ a ∧ a ≤ 255 → memRead s.hostReset.mem a = some 0) ∧
    ∀ s' : State, s'.params = s.params → s'.hostReset = s.hostReset
end

