-- ==== Sys2Proof/Laws/Decode.lean ====
section
/-! SUPPORT. What the decoder's parts can answer. -/

namespace Sys2Proof

/-- The operand check passes exactly the numbers 0 to 7 (R24, R84). -/
theorem regOperand_ok (op : Byte) (r : Reg) : regOperand op = .ok r ↔ op.toNat = r.val := by
  unfold regOperand
  split
  next h => simp [Fin.ext_iff]
  next h => simp; omega

/-- The operand check refuses exactly the bytes above 7, by name (R24). -/
theorem regOperand_error (op : Byte) (e : DecodeError) :
    regOperand op = .error e ↔ 7 < op.toNat ∧ e = .registerIndex op := by
  unfold regOperand
  split
  next h => simp; omega
  next h => simp [eq_comm]; omega

/-- The operand check undoes the register encoding. -/
@[simp] theorem regOperand_regByte (r : Reg) : regOperand (regByte r) = .ok r :=
  (regOperand_ok _ r).2 (by simp [regByte]; omega)

/-- A byte that passed the check is the register's own encoding. -/
theorem regByte_of_regOperand (op : Byte) (r : Reg) (h : regOperand op = .ok r) : regByte r = op := by
  have := (regOperand_ok op r).1 h
  apply BitVec.eq_of_toNat_eq
  simp [regByte, ← this]

/-- The row found for a byte stands in the table under that byte. -/
theorem findRow_mem (l : List (Byte × Row)) (ir : Byte) (row : Row) (h : findRow l ir = some row) :
    (ir, row) ∈ l := by
  induction l with
  | nil => cases h
  | cons c rest ih =>
    obtain ⟨k, r⟩ := c
    simp only [findRow] at h
    split at h
    next hk => subst hk; cases h; simp
    next => simp [ih h]

/-- No row is found exactly for a byte that is no key (R88, R112). -/
theorem findRow_none (l : List (Byte × Row)) (ir : Byte) : findRow l ir = none ↔ ir ∉ l.map Prod.fst := by
  induction l with
  | nil => simp [findRow]
  | cons c rest ih =>
    obtain ⟨k, r⟩ := c
    simp only [findRow, List.map_cons, List.mem_cons, not_or]
    split
    next hk => simp [hk]
    next hk => simp [ih, hk]

/-- Dispatch misses exactly on a byte that is no key (R112). -/
theorem dispatch_none (p : Params) (ir : Byte) : dispatch p ir = none ↔ ir ∉ dispatchKeys p :=
  findRow_none (dispatchTable p) ir

/-- A search in two tables one after the other. -/
theorem findRow_append (l m : List (Byte × Row)) (ir : Byte) :
    findRow (l ++ m) ir = (findRow l ir).or (findRow m ir) := by
  induction l with
  | nil => rfl
  | cons c rest ih =>
    obtain ⟨k, r⟩ := c
    simp only [List.cons_append, findRow]
    split <;> simp_all

/-- What the decoder accepts comes from a row that stands in the table under the opcode byte. -/
theorem decode_ok (p : Params) (ir opA opB : Byte) (i : Instr) (h : decode p ir opA opB = .ok i) :
    ∃ row, dispatch p ir = some row ∧ (ir, row) ∈ dispatchTable p ∧ row.build opA opB = .ok i := by
  unfold decode at h
  split at h
  next => cases h
  next row hr => exact ⟨row, hr, findRow_mem _ _ _ hr, h⟩

/-- What a row with one register operand builds. -/
theorem build_f1_ok (mk : Reg → Instr) (opA opB : Byte) (i : Instr) (h : (Row.f1 mk).build opA opB = .ok i) :
    ∃ ra, regOperand opA = .ok ra ∧ i = mk ra := by
  simp only [Row.build] at h
  split at h
  next => cases h
  next ra hr => exact ⟨ra, hr, (Except.ok.inj h).symm⟩

/-- What a row with two register operands builds. -/
theorem build_f2_ok (mk : Reg → Reg → Instr) (opA opB : Byte) (i : Instr) (h : (Row.f2 mk).build opA opB = .ok i) :
    ∃ ra rb, regOperand opA = .ok ra ∧ regOperand opB = .ok rb ∧ i = mk ra rb := by
  simp only [Row.build] at h
  split at h
  next => cases h
  next ra hr =>
    split at h
    next => cases h
    next rb hb => exact ⟨ra, rb, hr, hb, (Except.ok.inj h).symm⟩

/-- What a row with a register and an immediate builds. -/
theorem build_f2imm_ok (mk : Reg → Byte → Instr) (opA opB : Byte) (i : Instr)
    (h : (Row.f2imm mk).build opA opB = .ok i) : ∃ ra, regOperand opA = .ok ra ∧ i = mk ra opB := by
  simp only [Row.build] at h
  split at h
  next => cases h
  next ra hr => exact ⟨ra, hr, (Except.ok.inj h).symm⟩

/-- Why a selected row builds nothing: an operand byte it uses as a register index is above 7, A before B (R113). -/
theorem build_error (row : Row) (opA opB : Byte) (e : DecodeError) (h : row.build opA opB = .error e) :
    (7 < opA.toNat ∧ e = .registerIndex opA) ∨ (opA.toNat ≤ 7 ∧ 7 < opB.toNat ∧ e = .registerIndex opB) := by
  have hA (ra : Reg) (hr : regOperand opA = .ok ra) : opA.toNat ≤ 7 := by
    have := (regOperand_ok _ _).1 hr; omega
  cases row <;> simp only [Row.build, reduceCtorEq] at h
  · split at h
    next e' he => exact .inl (by cases h; exact (regOperand_error _ _).1 he)
    next => cases h
  · split at h
    next e' he => exact .inl (by cases h; exact (regOperand_error _ _).1 he)
    next ra hr =>
      split at h
      next e' he => exact .inr ⟨hA ra hr, by cases h; exact (regOperand_error _ _).1 he⟩
      next => cases h
  · split at h
    next e' he => exact .inl (by cases h; exact (regOperand_error _ _).1 he)
    next => cases h

/-- The rows of the dispatch table. -/
theorem mem_dispatchTable (p : Params) (c : Byte × Row) :
    c ∈ dispatchTable p ↔ c ∈ baseRows ∨ (p.aluExt = true ∧ c ∈ aluExtRows) ∨
      ∃ b, p.opcAddi = some b ∧ c = (b, .f2 .addi) := by
  simp only [dispatchTable, List.mem_append, or_assoc]
  refine or_congr_right (or_congr ?_ ?_)
  · cases p.aluExt <;> simp
  · cases p.opcAddi <;> simp [addiRows]

/-- The instructions of a row have `ir` as their opcode byte and use as many bytes as register indices as the row's form
checks (R80, R84). -/
def Row.Encodes (p : Params) (ir : Byte) : Row → Prop
  | .f0 i => i.opcode p = some ir ∧ i.registerOperands = 0
  | .f1 mk => ∀ ra, (mk ra).opcode p = some ir ∧ (mk ra).registerOperands = 1
  | .f2 mk => ∀ ra rb, (mk ra rb).opcode p = some ir ∧ (mk ra rb).registerOperands = 2
  | .f2imm mk => ∀ ra imm, (mk ra imm).opcode p = some ir ∧ (mk ra imm).registerOperands = 1

/-- Every row of the dispatch table encodes its instructions under its own key (R86, R87, R89). -/
theorem dispatchTable_encodes (p : Params) (ir : Byte) (row : Row) (h : (ir, row) ∈ dispatchTable p) :
    row.Encodes p ir := by
  have base : ∀ c ∈ baseRows, c.2.Encodes p c.1 := by
    simp [baseRows, Row.Encodes, Instr.opcode, Instr.registerOperands]
  have ext (he : p.aluExt = true) : ∀ c ∈ aluExtRows, c.2.Encodes p c.1 := by
    simp [aluExtRows, Row.Encodes, Instr.opcode, Instr.registerOperands, he]
  rcases (mem_dispatchTable p _).1 h with hm | ⟨he, hm⟩ | ⟨b, hb, e⟩
  · exact base _ hm
  · exact ext he _ hm
  · cases e; exact fun _ _ => ⟨hb, rfl⟩

/-- What a RegisterIndexFault says of the fetched bytes: the opcode is that of an instruction which uses the byte above 7
as a register index, operand A, or operand B after an operand A of at most 7 (R113). -/
theorem decode_registerIndex (p : Params) (ir opA opB op : Byte)
    (h : decode p ir opA opB = .error (.registerIndex op)) :
    ∃ i : Instr, i.opcode p = some ir ∧ 7 < op.toNat ∧
      ((1 ≤ i.registerOperands ∧ op = opA) ∨ (i.registerOperands = 2 ∧ op = opB ∧ opA.toNat ≤ 7)) := by
  have err : ∀ x : Byte, regOperand x = .error (.registerIndex op) → 7 < op.toNat ∧ op = x := fun x hx => by
    obtain ⟨h7, e⟩ := (regOperand_error _ _).1 hx
    cases e; exact ⟨h7, rfl⟩
  unfold decode at h
  split at h
  · cases h
  next row hd =>
    have hrow := dispatchTable_encodes _ _ _ (findRow_mem _ _ _ hd)
    cases row with
    | f0 i => cases h
    | f1 mk =>
      simp only [Row.build] at h
      split at h
      next hx => cases h; exact ⟨mk 0, (hrow 0).1, (err _ hx).1, .inl ⟨(hrow 0).2.ge, (err _ hx).2⟩⟩
      next => cases h
    | f2imm mk =>
      simp only [Row.build] at h
      split at h
      next hx => cases h; exact ⟨mk 0 0, (hrow 0 0).1, (err _ hx).1, .inl ⟨(hrow 0 0).2.ge, (err _ hx).2⟩⟩
      next => cases h
    | f2 mk =>
      simp only [Row.build] at h
      split at h
      next hx =>
        cases h
        exact ⟨mk 0 0, (hrow 0 0).1, (err _ hx).1, .inl ⟨by rw [(hrow 0 0).2]; decide, (err _ hx).2⟩⟩
      next ra hra =>
        split at h
        next hx =>
          cases h
          exact ⟨mk 0 0, (hrow 0 0).1, (err _ hx).1,
            .inr ⟨(hrow 0 0).2, (err _ hx).2, (regOperand_ok _ _).1 hra ▸ Nat.le_of_lt_succ ra.isLt⟩⟩
        next => cases h

end Sys2Proof
end

