-- ==== Sys2Proof/Laws/Memory.lean ====
section
/-! SUPPORT. The laws of memory: read after write, and that every memory operation keeps the canonical form. -/

namespace Sys2Proof.Machine

/-- An address below every listed one reads as unlisted. -/
theorem Memory.lookup_of_lt_all (m : Memory) (a : Nat) (h : ∀ c ∈ m, a < c.1) :
    Memory.lookup m a = unlistedByte := by
  induction m with
  | nil => rfl
  | cons c rest ih =>
    have hc := h c (by simp)
    simp only [Memory.lookup, Nat.ne_of_lt hc, if_false]
    exact ih fun d hd => h d (by simp [hd])

/-- A lookup after an update: the byte written at its address, the old byte elsewhere. -/
theorem Memory.lookup_update (m : Memory) (hm : m.Pairwise (fun c d => c.1 < d.1)) (a b : Nat) (v : Byte) :
    Memory.lookup (Memory.update m a v) b = if b = a then v else Memory.lookup m b := by
  induction m with
  | nil => by_cases hv : v = unlistedByte <;> simp [Memory.update, Memory.lookup, hv]
  | cons c rest ih =>
    obtain ⟨k, w⟩ := c
    obtain ⟨hk, hrest⟩ := List.pairwise_cons.1 hm
    simp only [Memory.update]
    split
    next hlt =>
      have habove : Memory.lookup ((k, w) :: rest) a = unlistedByte :=
        Memory.lookup_of_lt_all _ a fun d hd => by
          rcases List.mem_cons.1 hd with rfl | hd
          · exact hlt
          · exact hlt.trans (hk d hd)
      split
      next hv =>
        split
        next hb => rw [hb, habove, hv]
        next => rfl
      next => simp only [Memory.lookup]
    next =>
      split
      next heq =>
        subst heq
        have hgone : Memory.lookup rest a = unlistedByte := Memory.lookup_of_lt_all rest a hk
        split
        next hv =>
          by_cases hb : b = a
          · simp [hb, hgone, hv]
          · simp [hb, Memory.lookup]
        next => by_cases hb : b = a <;> simp [hb, Memory.lookup]
      next hne =>
        simp only [Memory.lookup, ih hrest]
        by_cases hbk : b = k
        · subst hbk; simp [Ne.symm hne]
        · simp [hbk]

/-- Every entry after an update is an entry from before or the one written. -/
theorem Memory.mem_update (m : Memory) (a : Nat) (v : Byte) (c : Host.Cell) (h : c ∈ Memory.update m a v) :
    c ∈ m ∨ (c = (a, v) ∧ v ≠ unlistedByte) := by
  induction m with
  | nil => by_cases hv : v = unlistedByte <;> simp_all [Memory.update]
  | cons d rest ih =>
    obtain ⟨k, w⟩ := d
    simp only [Memory.update] at h
    split at h
    · by_cases hv : v = unlistedByte <;> (simp_all; try tauto)
    · split at h
      · by_cases hv : v = unlistedByte <;> (simp_all; try tauto)
      · rcases List.mem_cons.1 h with rfl | h
        · simp
        · rcases ih h with h | h
          · exact .inl (by simp [h])
          · exact .inr h

/-- An update keeps the canonical form. -/
theorem Memory.update_wf (m : Memory) (hm : Memory.wf m) (a : Nat) (ha : a < Config.memSize) (v : Byte) :
    Memory.wf (Memory.update m a v) := by
  refine ⟨?_, fun c hc => ?_⟩
  · obtain ⟨hp, -⟩ := hm
    induction m with
    | nil => by_cases hv : v = unlistedByte <;> simp [Memory.update, hv]
    | cons d rest ih =>
      obtain ⟨k, w⟩ := d
      obtain ⟨hk, hrest⟩ := List.pairwise_cons.1 hp
      simp only [Memory.update]
      split
      next hlt =>
        split
        · exact hp
        · refine List.pairwise_cons.2 ⟨fun e he => ?_, hp⟩
          rcases List.mem_cons.1 he with rfl | he
          · exact hlt
          · exact hlt.trans (hk e he)
      next hnlt =>
        split
        next heq =>
          split
          · exact hrest
          · exact List.pairwise_cons.2 ⟨fun e he => heq ▸ hk e he, hrest⟩
        next hne =>
          refine List.pairwise_cons.2 ⟨fun e he => ?_, ih hrest⟩
          rcases Memory.mem_update rest a v e he with he | ⟨rfl, -⟩
          · exact hk e he
          · show k < a; omega
  · rcases Memory.mem_update m a v c hc with hc | ⟨rfl, hv⟩
    · exact hm.2 c hc
    · exact ⟨ha, hv⟩

/-- What a read can answer (R51). -/
theorem memRead_eq_some (m : Memory) (a : Int) (v : Byte) :
    memRead m a = some v ↔ validAddr a ∧ Memory.lookup m a.toNat = v := by
  simp [memRead]

/-- A read inside memory answers a byte (R51). -/
theorem memRead_of_valid (m : Memory) (a : Int) (h : validAddr a) :
    memRead m a = some (Memory.lookup m a.toNat) := if_pos h

/-- A read outside memory fails (R51). -/
theorem memRead_of_invalid (m : Memory) (a : Int) (h : ¬ validAddr a) : memRead m a = none := if_neg h

/-- What a write can answer (R51). -/
theorem memWrite_eq_some (m m' : Memory) (a : Int) (v : Byte) :
    memWrite m a v = some m' ↔ validAddr a ∧ Memory.update m a.toNat v = m' := by
  simp [memWrite]

/-- A read after a write: the byte written at its address, the old answer elsewhere (R57). -/
theorem memRead_memWrite (m m' : Memory) (hm : Memory.wf m) (a b : Int) (v : Byte) (h : memWrite m a v = some m') :
    memRead m' b = if b = a then some v else memRead m b := by
  obtain ⟨ha, rfl⟩ := (memWrite_eq_some m m' a v).1 h
  by_cases hb : validAddr b
  · rw [memRead_of_valid _ _ hb, memRead_of_valid _ _ hb, Memory.lookup_update m hm.1]
    by_cases hab : b = a
    · simp [hab]
    · have : b.toNat ≠ a.toNat := by unfold validAddr at ha hb; omega
      simp [hab, this]
  · have hab : b ≠ a := fun hab => hb (hab ▸ ha)
    simp [memRead_of_invalid _ _ hb, hab]

/-- A write keeps the canonical form. -/
theorem memWrite_wf (m m' : Memory) (hm : Memory.wf m) (a : Int) (v : Byte) (h : memWrite m a v = some m') :
    Memory.wf m' := by
  obtain ⟨ha, rfl⟩ := (memWrite_eq_some m m' a v).1 h
  refine Memory.update_wf m hm a.toNat ?_ v
  unfold validAddr at ha; omega

/-- A read after an update at a byte address. -/
theorem memRead_update_byte (m : Memory) (hm : Memory.wf m) (k v : Byte) (a : Int) :
    memRead (Memory.update m k.toNat v) a = if a = k.toNat then some v else memRead m a :=
  memRead_memWrite m _ hm k.toNat a v <| by
    have hk : validAddr k.toNat := by unfold validAddr Config.memSize; omega
    exact (memWrite_eq_some m _ _ v).2 ⟨hk, by rw [Int.toNat_natCast]⟩

/-- A read at a byte address never fails. -/
theorem memRead_byte (m : Memory) (k : Byte) : memRead m k.toNat = some (Memory.lookup m k.toNat) := by
  have hk : validAddr k.toNat := by unfold validAddr Config.memSize; omega
  rw [memRead_of_valid m _ hk, Int.toNat_natCast]

/-- The load keeps the canonical form. -/
theorem State.loadFrom_wf (s t : State) (hs : Memory.wf s.mem) (a : Int) (bs : List Byte)
    (h : s.loadFrom a bs = some t) : Memory.wf t.mem := by
  induction bs generalizing s a with
  | nil =>
    obtain rfl : s = t := Option.some.inj h
    exact hs
  | cons b rest ih =>
    rw [State.loadFrom] at h
    cases hm : memWrite s.mem a b with
    | none => simp [hm] at h
    | some m =>
      rw [hm] at h
      have hw : Memory.wf m := memWrite_wf s.mem m hs _ b hm
      exact ih { s with mem := m } hw (a + 1) h

/-- Placing bytes keeps the canonical form. -/
theorem State.placeBytes_wf (s : State) (hs : Memory.wf s.mem) (a : Int) (bs : List Byte) :
    Memory.wf (s.placeBytes a bs).mem := by
  induction bs generalizing s a with
  | nil => exact hs
  | cons b rest ih =>
    rw [State.placeBytes]
    cases hm : memWrite s.mem a b with
    | none => exact hs
    | some m => exact ih _ (memWrite_wf s.mem m hs _ b hm) _

/-- Reset memory has the canonical form. -/
theorem State.resetWith_wf (p : Params) : Memory.wf (State.resetWith p).mem := by
  simp [State.resetWith, Memory.wf]

end Sys2Proof.Machine
end

