-- ==== Sys2Proof/Laws/State.lean ====
section
/-! SUPPORT. What each update of State does to each field and to a register read: true by rfl but for register reads. -/

namespace Sys2Proof.Machine

@[simp] theorem State.setReg_pc (s : State) (r : Reg) (v : Byte) : (s.setReg r v).pc = s.pc := rfl
@[simp] theorem State.setReg_fl (s : State) (r : Reg) (v : Byte) : (s.setReg r v).fl = s.fl := rfl
@[simp] theorem State.setReg_run (s : State) (r : Reg) (v : Byte) : (s.setReg r v).run = s.run := rfl
@[simp] theorem State.setReg_fault (s : State) (r : Reg) (v : Byte) : (s.setReg r v).fault = s.fault := rfl
@[simp] theorem State.setReg_mem (s : State) (r : Reg) (v : Byte) : (s.setReg r v).mem = s.mem := rfl
@[simp] theorem State.setReg_out (s : State) (r : Reg) (v : Byte) : (s.setReg r v).out = s.out := rfl
@[simp] theorem State.setReg_params (s : State) (r : Reg) (v : Byte) : (s.setReg r v).params = s.params := rfl

@[simp] theorem State.setSp_pc (s : State) (v : Byte) : (s.setSp v).pc = s.pc := rfl
@[simp] theorem State.setSp_fl (s : State) (v : Byte) : (s.setSp v).fl = s.fl := rfl
@[simp] theorem State.setSp_run (s : State) (v : Byte) : (s.setSp v).run = s.run := rfl
@[simp] theorem State.setSp_fault (s : State) (v : Byte) : (s.setSp v).fault = s.fault := rfl
@[simp] theorem State.setSp_mem (s : State) (v : Byte) : (s.setSp v).mem = s.mem := rfl
@[simp] theorem State.setSp_out (s : State) (v : Byte) : (s.setSp v).out = s.out := rfl
@[simp] theorem State.setSp_params (s : State) (v : Byte) : (s.setSp v).params = s.params := rfl

@[simp] theorem State.dropTop_pc (s : State) : s.dropTop.pc = s.pc := rfl
@[simp] theorem State.dropTop_fl (s : State) : s.dropTop.fl = s.fl := rfl
@[simp] theorem State.dropTop_run (s : State) : s.dropTop.run = s.run := rfl
@[simp] theorem State.dropTop_fault (s : State) : s.dropTop.fault = s.fault := rfl
@[simp] theorem State.dropTop_mem (s : State) : s.dropTop.mem = s.mem := rfl
@[simp] theorem State.dropTop_out (s : State) : s.dropTop.out = s.out := rfl
@[simp] theorem State.dropTop_params (s : State) : s.dropTop.params = s.params := rfl

@[simp] theorem State.setPc_x (s : State) (q : Pc) : (s.setPc q).x = s.x := rfl
@[simp] theorem State.setPc_pc (s : State) (q : Pc) : (s.setPc q).pc = q := rfl
@[simp] theorem State.setPc_fl (s : State) (q : Pc) : (s.setPc q).fl = s.fl := rfl
@[simp] theorem State.setPc_run (s : State) (q : Pc) : (s.setPc q).run = s.run := rfl
@[simp] theorem State.setPc_fault (s : State) (q : Pc) : (s.setPc q).fault = s.fault := rfl
@[simp] theorem State.setPc_mem (s : State) (q : Pc) : (s.setPc q).mem = s.mem := rfl
@[simp] theorem State.setPc_out (s : State) (q : Pc) : (s.setPc q).out = s.out := rfl
@[simp] theorem State.setPc_params (s : State) (q : Pc) : (s.setPc q).params = s.params := rfl

@[simp] theorem State.advance_x (s : State) (n : Pc) : (s.advance n).x = s.x := rfl
@[simp] theorem State.advance_pc (s : State) (n : Pc) : (s.advance n).pc = s.pc + n := rfl
@[simp] theorem State.advance_fl (s : State) (n : Pc) : (s.advance n).fl = s.fl := rfl
@[simp] theorem State.advance_run (s : State) (n : Pc) : (s.advance n).run = s.run := rfl
@[simp] theorem State.advance_fault (s : State) (n : Pc) : (s.advance n).fault = s.fault := rfl
@[simp] theorem State.advance_mem (s : State) (n : Pc) : (s.advance n).mem = s.mem := rfl
@[simp] theorem State.advance_out (s : State) (n : Pc) : (s.advance n).out = s.out := rfl
@[simp] theorem State.advance_params (s : State) (n : Pc) : (s.advance n).params = s.params := rfl

@[simp] theorem State.setFl_x (s : State) (f : Flags) : (s.setFl f).x = s.x := rfl
@[simp] theorem State.setFl_pc (s : State) (f : Flags) : (s.setFl f).pc = s.pc := rfl
@[simp] theorem State.setFl_fl (s : State) (f : Flags) : (s.setFl f).fl = f := rfl
@[simp] theorem State.setFl_run (s : State) (f : Flags) : (s.setFl f).run = s.run := rfl
@[simp] theorem State.setFl_fault (s : State) (f : Flags) : (s.setFl f).fault = s.fault := rfl
@[simp] theorem State.setFl_mem (s : State) (f : Flags) : (s.setFl f).mem = s.mem := rfl
@[simp] theorem State.setFl_out (s : State) (f : Flags) : (s.setFl f).out = s.out := rfl
@[simp] theorem State.setFl_params (s : State) (f : Flags) : (s.setFl f).params = s.params := rfl

@[simp] theorem State.setRun_x (s : State) (r : RunState) : (s.setRun r).x = s.x := rfl
@[simp] theorem State.setRun_pc (s : State) (r : RunState) : (s.setRun r).pc = s.pc := rfl
@[simp] theorem State.setRun_fl (s : State) (r : RunState) : (s.setRun r).fl = s.fl := rfl
@[simp] theorem State.setRun_run (s : State) (r : RunState) : (s.setRun r).run = r := rfl
@[simp] theorem State.setRun_fault (s : State) (r : RunState) : (s.setRun r).fault = s.fault := rfl
@[simp] theorem State.setRun_mem (s : State) (r : RunState) : (s.setRun r).mem = s.mem := rfl
@[simp] theorem State.setRun_out (s : State) (r : RunState) : (s.setRun r).out = s.out := rfl
@[simp] theorem State.setRun_params (s : State) (r : RunState) : (s.setRun r).params = s.params := rfl

@[simp] theorem State.output_x (s : State) (v : Byte) : (s.output v).x = s.x := rfl
@[simp] theorem State.output_pc (s : State) (v : Byte) : (s.output v).pc = s.pc := rfl
@[simp] theorem State.output_fl (s : State) (v : Byte) : (s.output v).fl = s.fl := rfl
@[simp] theorem State.output_run (s : State) (v : Byte) : (s.output v).run = s.run := rfl
@[simp] theorem State.output_fault (s : State) (v : Byte) : (s.output v).fault = s.fault := rfl
@[simp] theorem State.output_mem (s : State) (v : Byte) : (s.output v).mem = s.mem := rfl
@[simp] theorem State.output_out (s : State) (v : Byte) : (s.output v).out = s.out ++ [v] := rfl
@[simp] theorem State.output_params (s : State) (v : Byte) : (s.output v).params = s.params := rfl

@[simp] theorem State.raise_x (s : State) (o : Option Byte) (c : FaultCause) :
    (s.raise o c).x = s.x := rfl
@[simp] theorem State.raise_pc (s : State) (o : Option Byte) (c : FaultCause) :
    (s.raise o c).pc = s.pc := rfl
@[simp] theorem State.raise_fl (s : State) (o : Option Byte) (c : FaultCause) :
    (s.raise o c).fl = s.fl := rfl
@[simp] theorem State.raise_run (s : State) (o : Option Byte) (c : FaultCause) :
    (s.raise o c).run = .faulted := rfl
@[simp] theorem State.raise_fault (s : State) (o : Option Byte) (c : FaultCause) :
    (s.raise o c).fault = some { kind := c.kind, opcode := o, pcAtFault := s.pc, info := c.info } := rfl
@[simp] theorem State.raise_mem (s : State) (o : Option Byte) (c : FaultCause) :
    (s.raise o c).mem = s.mem := rfl
@[simp] theorem State.raise_out (s : State) (o : Option Byte) (c : FaultCause) :
    (s.raise o c).out = s.out := rfl
@[simp] theorem State.raise_params (s : State) (o : Option Byte) (c : FaultCause) :
    (s.raise o c).params = s.params := rfl

@[simp] theorem State.setPc_getReg (s : State) (q : Pc) (q' : Reg) : (s.setPc q).getReg q' = s.getReg q' := rfl
@[simp] theorem State.advance_getReg (s : State) (n : Pc) (q' : Reg) : (s.advance n).getReg q' = s.getReg q' := rfl
@[simp] theorem State.setFl_getReg (s : State) (f : Flags) (q' : Reg) : (s.setFl f).getReg q' = s.getReg q' := rfl
@[simp] theorem State.setRun_getReg (s : State) (r : RunState) (q' : Reg) : (s.setRun r).getReg q' = s.getReg q' := rfl
@[simp] theorem State.output_getReg (s : State) (v : Byte) (q' : Reg) : (s.output v).getReg q' = s.getReg q' := rfl
@[simp] theorem State.raise_getReg (s : State) (o : Option Byte) (c : FaultCause) (r : Reg) :
    (s.raise o c).getReg r = s.getReg r := rfl

/-- A register read after a register write. -/
theorem State.getReg_setReg (s : State) (r q : Reg) (v : Byte) :
    (s.setReg r v).getReg q = if q = r then v else s.getReg q := by
  simp [State.getReg, State.setReg, Vector.getElem_set, Fin.ext_iff, eq_comm]

@[simp] theorem State.getReg_setReg_self (s : State) (r : Reg) (v : Byte) : (s.setReg r v).getReg r = v := by
  simp [State.getReg_setReg]

theorem State.getReg_setReg_of_ne (s : State) {r q : Reg} (v : Byte) (h : q ≠ r) :
    (s.setReg r v).getReg q = s.getReg q := by
  simp [State.getReg_setReg, h]

@[simp] theorem State.setSp_sp (s : State) (v : Byte) : (s.setSp v).sp = v := State.getReg_setReg_self s _ v

@[simp] theorem State.dropTop_sp (s : State) : s.dropTop.sp = s.sp + 1 := State.setSp_sp s _

theorem State.setSp_getReg_of_ne (s : State) {q : Reg} (v : Byte) (h : q ≠ Config.spIndex) :
    (s.setSp v).getReg q = s.getReg q := State.getReg_setReg_of_ne s v h

/-- The stack pointer is register 7 (R22). -/
@[simp] theorem spIndex_eq : Config.spIndex = 7 := rfl

theorem State.setReg_sp_of_ne (s : State) {r : Reg} (v : Byte) (h : r ≠ 7) : (s.setReg r v).sp = s.sp :=
  State.getReg_setReg_of_ne s v (Ne.symm h)

/-- An advance of at most 3 from an address where an instruction executes does not wrap (R27). -/
theorem State.advance_pc_toNat (s : State) (n : Pc) (hn : n.toNat ≤ 3) (h : s.pc.toNat ≤ 253) :
    (s.advance n).pc.toNat = s.pc.toNat + n.toNat := by
  rw [State.advance_pc, BitVec.toNat_add]; omega

/-- `zext_9` keeps the magnitude (R6). -/
@[simp] theorem zext9_toNat (v : Byte) : (zext9 v).toNat = v.toNat := by
  rw [zext9, BitVec.toNat_setWidth]; omega

/-- The return address is `pc + 2` where an instruction executes (R27, R180). -/
theorem State.returnAddress_toNat (s : State) (h : s.pc.toNat ≤ 253) : s.returnAddress.toNat = s.pc.toNat + 2 := by
  rw [State.returnAddress, BitVec.toNat_setWidth, BitVec.toNat_add, show (2 : Pc).toNat = 2 from rfl]; omega

/-- Writing a register its own value changes nothing. -/
@[simp] theorem State.setReg_getReg (s : State) (r : Reg) : s.setReg r (s.getReg r) = s := by
  simp [State.setReg, State.getReg]

end Sys2Proof.Machine
end

