-- ==== Sys2Proof/Laws/Ops.lean ====
section
/-! SUPPORT. One lemma per shared operation that says everything it can answer, for the proofs to cite instead of
unfolding it. -/

namespace Sys2Proof.Machine

/-! ## Ends of instructions -/

@[simp] theorem State.complete_ok (s t : State) (o : Option Byte) : s.complete o (.ok t) = .next t := rfl

@[simp] theorem State.complete_error (s : State) (o : Option Byte) (c : FaultCause) :
    s.complete o (.error c) = .next (s.raise o c) := rfl

/-! ## Data accesses through a byte address never fail -/

theorem validAddr_byte (a : Byte) : validAddr a.toNat := by
  unfold validAddr Config.memSize; omega

theorem State.loadByte_byte (s : State) (a : Byte) : s.loadByte a.toNat = .ok (Memory.lookup s.mem a.toNat) := by
  rw [State.loadByte, memRead_of_valid _ _ (validAddr_byte a)]; simp

theorem State.storeByte_byte (s : State) (a v : Byte) :
    s.storeByte a.toNat v = .ok { s with mem := Memory.update s.mem a.toNat v } := by
  rw [State.storeByte, memWrite, if_pos (validAddr_byte a)]; simp

/-! ## The stack -/

/-- A push at SP = 0 (R204). -/
theorem State.push_zero (s : State) (value : State → Byte) (h : s.sp = 0) :
    s.push value = .error { kind := .stackOverflow, info := 0 } := by
  simp [State.push, h]

/-- A push at any other SP: SP one lower, the byte stored at the new SP (R170). -/
theorem State.push_pos (s : State) (value : State → Byte) (h : s.sp ≠ 0) :
    s.push value = .ok { s.setSp (s.sp - 1) with
      mem := Memory.update s.mem (s.sp - 1).toNat (value (s.setSp (s.sp - 1))) } := by
  rw [State.push, if_neg h]
  show (s.setSp (s.sp - 1)).storeByte (s.setSp (s.sp - 1)).sp.toNat _ = _
  rw [State.storeByte_byte, State.setSp_sp, State.setSp_mem]

/-- A pop with an empty stack (R205). -/
theorem State.stackTopByte_empty (s : State) (h : popBound ≤ s.sp) :
    s.stackTopByte = .error { kind := .stackUnderflow, info := s.sp.toNat } := if_pos h

/-- A pop with a stack that is not empty: the byte at SP (R171). -/
theorem State.stackTopByte_full (s : State) (h : ¬ popBound ≤ s.sp) :
    s.stackTopByte = .ok (Memory.lookup s.mem s.sp.toNat) := by
  rw [State.stackTopByte, if_neg h, State.loadByte_byte]

theorem popBound_le_iff (v : Byte) : popBound ≤ v ↔ 0xF4 ≤ v.toNat := by
  simp [popBound, Config.stackTop, BitVec.le_def]

/-! ## The ALU -/

/-- The ALU fails only for MOD by zero (R149, R202). -/
theorem alu_error (f : AluFn) (a b : Byte) (c : FaultCause) (h : alu f a b = .error c) :
    f = .mod ∧ b = 0 ∧ c = { kind := .divisionByZero, info := a.toNat } := by
  cases f <;> simp only [alu, reduceCtorEq] at h
  split at h
  next hb => exact ⟨rfl, hb, (Except.error.inj h).symm⟩
  next => cases h

/-- An ALU instruction that completes writes its destination and advances `pc`, nothing else. -/
theorem State.aluInto_ok (s t : State) (f : AluFn) (ra : Reg) (b : Byte) (n : Pc) (h : s.aluInto f ra b n = .ok t) :
    ∃ v, alu f (s.getReg ra) b = .ok v ∧ t = (s.setReg ra v).advance n := by
  unfold State.aluInto at h
  split at h
  next v hv => exact ⟨v, hv, (Except.ok.inj h).symm⟩
  next => cases h

/-- An ALU instruction fails only for MOD by zero. -/
theorem State.aluInto_error (s : State) (f : AluFn) (ra : Reg) (b : Byte) (n : Pc) (c : FaultCause)
    (h : s.aluInto f ra b n = .error c) :
    f = .mod ∧ b = 0 ∧ c = { kind := .divisionByZero, info := (s.getReg ra).toNat } := by
  unfold State.aluInto at h
  split at h
  next => cases h
  next c' hc => exact (Except.error.inj h) ▸ alu_error f _ b c' hc

/-! ## Fetch -/

/-- Where all three fetch addresses are inside memory, the three bytes there are decoded (R111). -/
theorem State.fetchDecode_low (s : State) (h : s.pc.toNat ≤ 253) :
    s.fetchDecode = decodeStage s.params (Memory.lookup s.mem s.pc.toNat) (Memory.lookup s.mem (s.pc.toNat + 1))
      (Memory.lookup s.mem (s.pc.toNat + 2)) := by
  have h0 : validAddr (s.pc.toNat : Int) := by unfold validAddr Config.memSize; omega
  have h1 : validAddr (s.pc.toNat + 1 : Int) := by unfold validAddr Config.memSize; omega
  have h2 : validAddr (s.pc.toNat + 2 : Int) := by unfold validAddr Config.memSize; omega
  have e1 : (s.pc.toNat + 1 : Int).toNat = s.pc.toNat + 1 := by omega
  have e2 : (s.pc.toNat + 2 : Int).toNat = s.pc.toNat + 2 := by omega
  simp only [State.fetchDecode, memRead_of_valid _ _ h0, memRead_of_valid _ _ h1, memRead_of_valid _ _ h2, e1, e2,
    Int.toNat_natCast]

/-- An instruction is fetched only at 253 or below (R27, R250). -/
theorem State.fetchDecode_instr (s : State) (i : Instr) (h : s.fetchDecode = .instr i) : s.pc.toNat ≤ 253 := by
  by_contra hpc
  have h2 : ¬ validAddr (s.pc.toNat + 2 : Int) := by unfold validAddr Config.memSize; omega
  simp only [State.fetchDecode, memRead_of_invalid _ _ h2] at h
  split at h
  · cases h
  · split at h <;> cases h

/-- Fetch looks only at `pc`, memory and the parameters. -/
theorem State.fetchDecode_congr (s t : State) (hpc : t.pc = s.pc) (hm : t.mem = s.mem) (hp : t.params = s.params) :
    t.fetchDecode = s.fetchDecode := by
  simp only [State.fetchDecode, hpc, hm, hp]

/-- What stages 2 and 3 answer for an instruction. -/
theorem decodeStage_instr (p : Params) (ir a b : Byte) (i : Instr) :
    decodeStage p ir a b = .instr i ↔ decode p ir a b = .ok i := by
  unfold decodeStage
  split <;> simp_all

/-- What stages 2 and 3 answer for a fault: it records the opcode byte, and the cause is the decoder's. -/
theorem decodeStage_raised (p : Params) (ir a b : Byte) (o : Option Byte) (c : FaultCause)
    (h : decodeStage p ir a b = .raised o c) :
    o = some ir ∧ ∃ e, decode p ir a b = .error e ∧ c = decodeErrorCause e := by
  unfold decodeStage at h
  split at h
  next => cases h
  next e he => cases h; exact ⟨rfl, e, he, rfl⟩

end Sys2Proof.Machine
end

