-- ==== Sys2Proof/Laws/PerInstr.lean ====
section
/-! SUPPORT. The per-instruction family EncodedShape: an instruction is encoded, exactly where its row exists, as its
opcode byte and then one byte per operand, as many bytes as its width says (R80, R82). -/

namespace Sys2Proof.Laws.EncodedShape

/-- The shape of one instruction's encoding, in a core with any parameters. -/
def Statement (i : Instr) : Prop :=
  i.operandBytes.length + 1 = i.width ∧ i.registerOperands ≤ i.operandBytes.length ∧
    ∀ p : Params, (i.wellFormed p = true → ∃ b, i.opcode p = some b ∧ encode p i = some (b :: i.operandBytes)) ∧
      (i.wellFormed p = false → encode p i = none)

/-- An instruction whose opcode is there exactly when its row is has the shape. -/
theorem of_opcode (i : Instr) (hw : i.operandBytes.length + 1 = i.width)
    (hr : i.registerOperands ≤ i.operandBytes.length)
    (ho : ∀ p, (i.opcode p).isSome = i.wellFormed p) : Statement i := by
  refine ⟨hw, hr, fun p => ⟨fun h => ?_, fun h => ?_⟩⟩
  · obtain ⟨b, hb⟩ := Option.isSome_iff_exists.1 ((ho p).trans h)
    exact ⟨b, hb, by simp [encode, hb]⟩
  · have hn : i.opcode p = none := Option.isNone_iff_eq_none.1 (by simp [Option.isNone_iff_eq_none, ← Option.not_isSome_iff_eq_none, ho p, h])
    simp [encode, hn]

theorem hlt : Statement .hlt :=
  of_opcode _ rfl (by simp [Instr.registerOperands, Instr.operandBytes]) (fun _ => rfl)

theorem ldi (ra : Reg) (imm : Byte) : Statement (.ldi ra imm) :=
  of_opcode _ rfl (by simp [Instr.registerOperands, Instr.operandBytes]) (fun _ => rfl)

theorem prn (ra : Reg) : Statement (.prn ra) :=
  of_opcode _ rfl (by simp [Instr.registerOperands, Instr.operandBytes]) (fun _ => rfl)

theorem add (ra rb : Reg) : Statement (.add ra rb) :=
  of_opcode _ rfl (by simp [Instr.registerOperands, Instr.operandBytes]) (fun _ => rfl)

theorem mul (ra rb : Reg) : Statement (.mul ra rb) :=
  of_opcode _ rfl (by simp [Instr.registerOperands, Instr.operandBytes]) (fun _ => rfl)

theorem push (ra : Reg) : Statement (.push ra) :=
  of_opcode _ rfl (by simp [Instr.registerOperands, Instr.operandBytes]) (fun _ => rfl)

theorem pop (ra : Reg) : Statement (.pop ra) :=
  of_opcode _ rfl (by simp [Instr.registerOperands, Instr.operandBytes]) (fun _ => rfl)

theorem call (ra : Reg) : Statement (.call ra) :=
  of_opcode _ rfl (by simp [Instr.registerOperands, Instr.operandBytes]) (fun _ => rfl)

theorem ret : Statement .ret :=
  of_opcode _ rfl (by simp [Instr.registerOperands, Instr.operandBytes]) (fun _ => rfl)

theorem cmp (ra rb : Reg) : Statement (.cmp ra rb) :=
  of_opcode _ rfl (by simp [Instr.registerOperands, Instr.operandBytes]) (fun _ => rfl)

theorem jeq (ra : Reg) : Statement (.jeq ra) :=
  of_opcode _ rfl (by simp [Instr.registerOperands, Instr.operandBytes]) (fun _ => rfl)

theorem jne (ra : Reg) : Statement (.jne ra) :=
  of_opcode _ rfl (by simp [Instr.registerOperands, Instr.operandBytes]) (fun _ => rfl)

theorem jmp (ra : Reg) : Statement (.jmp ra) :=
  of_opcode _ rfl (by simp [Instr.registerOperands, Instr.operandBytes]) (fun _ => rfl)

theorem addi (ra rb : Reg) : Statement (.addi ra rb) :=
  of_opcode _ rfl (by simp [Instr.registerOperands, Instr.operandBytes]) (fun _ => rfl)

theorem sub (ra rb : Reg) : Statement (.sub ra rb) :=
  of_opcode _ rfl (by simp [Instr.registerOperands, Instr.operandBytes]) (fun p => by cases h : p.aluExt <;> simp [Instr.opcode, Instr.wellFormed, h])

theorem mod (ra rb : Reg) : Statement (.mod ra rb) :=
  of_opcode _ rfl (by simp [Instr.registerOperands, Instr.operandBytes]) (fun p => by cases h : p.aluExt <;> simp [Instr.opcode, Instr.wellFormed, h])

theorem not (ra : Reg) : Statement (.not ra) :=
  of_opcode _ rfl (by simp [Instr.registerOperands, Instr.operandBytes]) (fun p => by cases h : p.aluExt <;> simp [Instr.opcode, Instr.wellFormed, h])

theorem and (ra rb : Reg) : Statement (.and ra rb) :=
  of_opcode _ rfl (by simp [Instr.registerOperands, Instr.operandBytes]) (fun p => by cases h : p.aluExt <;> simp [Instr.opcode, Instr.wellFormed, h])

theorem or (ra rb : Reg) : Statement (.or ra rb) :=
  of_opcode _ rfl (by simp [Instr.registerOperands, Instr.operandBytes]) (fun p => by cases h : p.aluExt <;> simp [Instr.opcode, Instr.wellFormed, h])

theorem xor (ra rb : Reg) : Statement (.xor ra rb) :=
  of_opcode _ rfl (by simp [Instr.registerOperands, Instr.operandBytes]) (fun p => by cases h : p.aluExt <;> simp [Instr.opcode, Instr.wellFormed, h])

theorem shl (ra rb : Reg) : Statement (.shl ra rb) :=
  of_opcode _ rfl (by simp [Instr.registerOperands, Instr.operandBytes]) (fun p => by cases h : p.aluExt <;> simp [Instr.opcode, Instr.wellFormed, h])

theorem shr (ra rb : Reg) : Statement (.shr ra rb) :=
  of_opcode _ rfl (by simp [Instr.registerOperands, Instr.operandBytes]) (fun p => by cases h : p.aluExt <;> simp [Instr.opcode, Instr.wellFormed, h])

end Sys2Proof.Laws.EncodedShape
end

