-- ==== Sys2Proof/Laws/Step.lean ====
section
/-! SUPPORT. What a step and an instruction can do, said once. -/

namespace Sys2Proof.Machine

/-- The two ways a step answers a next state: the fetched instruction executes, or a fault of the first three stages is
taken (R110). -/
theorem step_cases (s t : State) (h : step s = .next t) :
    s.run = .running ∧
      ((∃ i, s.fetchDecode = .instr i ∧ exec i s = .next t) ∨
        ∃ o c, s.fetchDecode = .raised o c ∧ t = s.raise o c) := by
  unfold step at h
  split at h
  · cases h
  · cases h
  next hr =>
    refine ⟨hr, ?_⟩
    split at h
    next i hi => exact .inl ⟨i, hi, h⟩
    next o c hc => exact .inr ⟨o, c, hc, (Host.Outcome.next.inj h).symm⟩

/-! ## Closed forms of the four instructions that access data memory -/

/-- PUSH at SP other than 0 (R170). -/
theorem execPush_pos (ra : Reg) (s : State) (h : s.sp ≠ 0) :
    execPush ra s = .next (State.advance { s.setSp (s.sp - 1) with
      mem := Memory.update s.mem (s.sp - 1).toNat ((s.setSp (s.sp - 1)).getReg ra) } 2) := by
  rw [execPush, State.push_pos s _ h]; rfl

/-- CALL at SP other than 0 (R180). -/
theorem execCall_pos (ra : Reg) (s : State) (h : s.sp ≠ 0) :
    execCall ra s = .next (State.setPc { s.setSp (s.sp - 1) with
      mem := Memory.update s.mem (s.sp - 1).toNat s.returnAddress } ((s.setSp (s.sp - 1)).target ra)) := by
  rw [execCall, State.push_pos s _ h]; rfl

/-- POP with a stack that is not empty (R171). -/
theorem execPop_full (ra : Reg) (s : State) (h : ¬ popBound ≤ s.sp) :
    execPop ra s = .next ((s.setReg ra (Memory.lookup s.mem s.sp.toNat)).dropTop.advance 2) := by
  rw [execPop, State.stackTopByte_full s h]; rfl

/-- RET with a stack that is not empty (R181). -/
theorem execRet_full (s : State) (h : ¬ popBound ≤ s.sp) :
    execRet s = .next ((s.setPc (zext9 (Memory.lookup s.mem s.sp.toNat))).dropTop) := by
  rw [execRet, State.stackTopByte_full s h]; rfl

/-- The faults an instruction raises by itself (R210 item 4): which instruction, when, and what it records. -/
inductive OwnFault (s : State) : Instr → Option Byte → FaultCause → Prop where
  | push (ra : Reg) (h : s.sp = 0) : OwnFault s (.push ra) (some opcPush) ⟨.stackOverflow, 0⟩
  | call (ra : Reg) (h : s.sp = 0) : OwnFault s (.call ra) (some opcCall) ⟨.stackOverflow, 0⟩
  | pop (ra : Reg) (h : popBound ≤ s.sp) : OwnFault s (.pop ra) (some opcPop) ⟨.stackUnderflow, s.sp.toNat⟩
  | ret (h : popBound ≤ s.sp) : OwnFault s .ret (some opcRet) ⟨.stackUnderflow, s.sp.toNat⟩
  | mod (ra rb : Reg) (h : s.getReg rb = 0) :
      OwnFault s (.mod ra rb) (some opcMod) ⟨.divisionByZero, (s.getReg ra).toNat⟩

/-- Everything an instruction can do (R114): raise a fault of its own, or reach the state its rule gives. The value of an
ALU instruction is left as `v`; `alu` says which it is. -/
inductive ExecEffect (s : State) : Instr → State → Prop where
  | raise (i : Instr) (o : Option Byte) (c : FaultCause) (h : OwnFault s i o c) : ExecEffect s i (s.raise o c)
  | hlt : ExecEffect s .hlt (s.setRun .halted)
  | ldi (ra : Reg) (v : Byte) : ExecEffect s (.ldi ra v) ((s.setReg ra v).advance 3)
  | prn (ra : Reg) : ExecEffect s (.prn ra) ((s.output (s.getReg ra)).advance 2)
  | add (ra rb : Reg) (v : Byte) : ExecEffect s (.add ra rb) ((s.setReg ra v).advance 3)
  | mul (ra rb : Reg) (v : Byte) : ExecEffect s (.mul ra rb) ((s.setReg ra v).advance 3)
  | addi (ra rb : Reg) (v : Byte) : ExecEffect s (.addi ra rb) ((s.setReg ra v).advance 2)
  | sub (ra rb : Reg) (v : Byte) : ExecEffect s (.sub ra rb) ((s.setReg ra v).advance 3)
  | mod (ra rb : Reg) (v : Byte) : ExecEffect s (.mod ra rb) ((s.setReg ra v).advance 3)
  | not (ra : Reg) (v : Byte) : ExecEffect s (.not ra) ((s.setReg ra v).advance 2)
  | and (ra rb : Reg) (v : Byte) : ExecEffect s (.and ra rb) ((s.setReg ra v).advance 3)
  | or (ra rb : Reg) (v : Byte) : ExecEffect s (.or ra rb) ((s.setReg ra v).advance 3)
  | xor (ra rb : Reg) (v : Byte) : ExecEffect s (.xor ra rb) ((s.setReg ra v).advance 3)
  | shl (ra rb : Reg) (v : Byte) : ExecEffect s (.shl ra rb) ((s.setReg ra v).advance 3)
  | shr (ra rb : Reg) (v : Byte) : ExecEffect s (.shr ra rb) ((s.setReg ra v).advance 3)
  | push (ra : Reg) (h : s.sp ≠ 0) : ExecEffect s (.push ra) (State.advance { s.setSp (s.sp - 1) with
      mem := Memory.update s.mem (s.sp - 1).toNat ((s.setSp (s.sp - 1)).getReg ra) } 2)
  | call (ra : Reg) (h : s.sp ≠ 0) : ExecEffect s (.call ra) (State.setPc { s.setSp (s.sp - 1) with
      mem := Memory.update s.mem (s.sp - 1).toNat s.returnAddress } ((s.setSp (s.sp - 1)).target ra))
  | pop (ra : Reg) (h : ¬ popBound ≤ s.sp) :
      ExecEffect s (.pop ra) ((s.setReg ra (Memory.lookup s.mem s.sp.toNat)).dropTop.advance 2)
  | ret (h : ¬ popBound ≤ s.sp) :
      ExecEffect s .ret ((s.setPc (zext9 (Memory.lookup s.mem s.sp.toNat))).dropTop)
  | cmp (ra rb : Reg) :
      ExecEffect s (.cmp ra rb) ((s.setFl (compareFlags (s.getReg ra) (s.getReg rb))).advance 3)
  | jeq (ra : Reg) : ExecEffect s (.jeq ra) (if s.fl = .equal then s.setPc (s.target ra) else s.advance 2)
  | jne (ra : Reg) : ExecEffect s (.jne ra) (if s.fl ≠ .equal then s.setPc (s.target ra) else s.advance 2)
  | jmp (ra : Reg) : ExecEffect s (.jmp ra) (s.setPc (s.target ra))

/-- An instruction does nothing that the catalogue does not list. -/
theorem exec_effect (i : Instr) (s t : State) (h : exec i s = .next t) : ExecEffect s i t := by
  cases i with
  | hlt => cases h; exact .hlt
  | ldi ra v => cases h; exact .ldi ra v
  | prn ra => cases h; exact .prn ra
  | cmp ra rb => cases h; exact .cmp ra rb
  | jmp ra => cases h; exact .jmp ra
  | jeq ra => cases h; exact .jeq ra
  | jne ra => cases h; exact .jne ra
  | add ra rb => cases h; exact .add ra rb _
  | mul ra rb => cases h; exact .mul ra rb _
  | addi ra rb => cases h; exact .addi ra rb _
  | sub ra rb => cases h; exact .sub ra rb _
  | not ra => cases h; exact .not ra _
  | and ra rb => cases h; exact .and ra rb _
  | or ra rb => cases h; exact .or ra rb _
  | xor ra rb => cases h; exact .xor ra rb _
  | shl ra rb => cases h; exact .shl ra rb _
  | shr ra rb => cases h; exact .shr ra rb _
  | mod ra rb =>
    simp only [exec, execMod, State.aluInto, alu] at h
    by_cases hb : s.getReg rb = 0
    · rw [if_pos hb] at h; cases h; exact .raise _ _ _ (.mod ra rb hb)
    · rw [if_neg hb] at h; cases h; exact .mod ra rb _
  | push ra =>
    simp only [exec] at h
    by_cases hs : s.sp = 0
    · rw [execPush, State.push_zero s _ hs] at h; cases h; exact .raise _ _ _ (.push ra hs)
    · rw [execPush_pos ra s hs] at h; cases h; exact .push ra hs
  | call ra =>
    simp only [exec] at h
    by_cases hs : s.sp = 0
    · rw [execCall, State.push_zero s _ hs] at h; cases h; exact .raise _ _ _ (.call ra hs)
    · rw [execCall_pos ra s hs] at h; cases h; exact .call ra hs
  | pop ra =>
    simp only [exec] at h
    by_cases hs : popBound ≤ s.sp
    · rw [execPop, State.stackTopByte_empty s hs] at h; cases h; exact .raise _ _ _ (.pop ra hs)
    · rw [execPop_full ra s hs] at h; cases h; exact .pop ra hs
  | ret =>
    simp only [exec] at h
    by_cases hs : popBound ≤ s.sp
    · rw [execRet, State.stackTopByte_empty s hs] at h; cases h; exact .raise _ _ _ (.ret hs)
    · rw [execRet_full s hs] at h; cases h; exact .ret hs

/-- An instruction's control effect: it raises a fault of its own, or it leaves the record and the parameters alone and
also `run`, unless it is HLT. -/
theorem exec_control (i : Instr) (s t : State) (h : exec i s = .next t) :
    (∃ o c, OwnFault s i o c ∧ t = s.raise o c) ∨
      (t.fault = s.fault ∧ t.params = s.params ∧ (t.run = s.run ∨ (i = .hlt ∧ t.run = .halted))) := by
  cases exec_effect i s t h with
  | raise i o c hc => exact .inl ⟨o, c, hc, rfl⟩
  | hlt => exact .inr ⟨rfl, rfl, .inr ⟨rfl, rfl⟩⟩
  | jeq ra => exact .inr (by split <;> exact ⟨rfl, rfl, .inl rfl⟩)
  | jne ra => exact .inr (by split <;> exact ⟨rfl, rfl, .inl rfl⟩)
  | _ => exact .inr ⟨rfl, rfl, .inl rfl⟩

end Sys2Proof.Machine
end

