-- ==== Sys2Proof/Laws/RunLoop.lean ====
section
/-! SUPPORT. How the run loop unrolls. -/

namespace Sys2Proof.Machine

@[simp] theorem State.runSteps_zero (s : State) : s.runSteps 0 = s := rfl

/-- The loop takes one step and goes on. -/
theorem State.runSteps_next (s t : State) (h : step s = .next t) (k : Nat) : s.runSteps (k + 1) = t.runSteps k := by
  rw [State.runSteps, h]

/-- The loop stays where there is no next state. -/
theorem State.runSteps_of_no_next (s : State) (h : ∀ t, step s ≠ .next t) (k : Nat) : s.runSteps k = s := by
  cases k with
  | zero => rfl
  | succ k =>
    rw [State.runSteps]
    split
    next t ht => exact absurd ht (h t)
    next => rfl
    next => rfl

/-- The loop stays in HALTED and FAULTED (R31). -/
theorem State.runSteps_stopped (s : State) (h : s.run ≠ .running) (k : Nat) : s.runSteps k = s :=
  s.runSteps_of_no_next (fun t ht => h (step_cases s t ht).1) k

/-- The loop composes: `j + k` steps are `j` steps and then `k`. -/
theorem State.runSteps_add (s : State) (j k : Nat) : s.runSteps (j + k) = (s.runSteps j).runSteps k := by
  induction j generalizing s with
  | zero => rw [Nat.zero_add, State.runSteps_zero]
  | succ j ih =>
    by_cases h : ∃ t, step s = .next t
    · obtain ⟨t, ht⟩ := h
      rw [Nat.succ_add, State.runSteps_next s t ht, State.runSteps_next s t ht, ih]
    · have hn : ∀ t, step s ≠ .next t := fun t ht => h ⟨t, ht⟩
      simp only [State.runSteps_of_no_next s hn]

end Sys2Proof.Machine
end

