-- ==== Sys2Proof/Machine/HostView.lean ====
section
/-! DEFINITION. What the host reads off a state or writes for an instruction: the lines printed for `out` (R33), the exit
status derived from `run` (R219, informative), and the written form of an instruction (R92). No step uses any of it. -/

namespace Sys2Proof.Machine

/-- The lines the host prints for `out`: decimal numerals, one a line, in order (R33). -/
def State.outputLines (s : State) : List String := s.out.map fun v => v.toNat.repr

/-- The exit status the host derives: none while RUNNING, 0 for HALTED, the fault code for FAULTED, which R219 suggests
as the value that is not zero. -/
def State.exitStatus (s : State) : Option Nat :=
  match s.run with
  | .running => none
  | .halted => some 0
  | .faulted => some s.faultCode

/-- A register as the examples write it, `R0` to `R7` (R92). -/
def regText (r : Reg) : String := "R" ++ r.val.repr

/-- One register operand after the mnemonic. -/
def text1 (mnemonic : String) (ra : Reg) : String := mnemonic ++ " " ++ regText ra

/-- Two register operands, operand A first, with a comma between. -/
def text2 (mnemonic : String) (ra rb : Reg) : String := text1 mnemonic ra ++ "," ++ regText rb

/-- The written form of an instruction in the spec's examples (R92). -/
def instrText : Instr → String
  | .hlt => "HLT"
  | .ldi ra imm => text1 "LDI" ra ++ "," ++ imm.toNat.repr
  | .prn ra => text1 "PRN" ra
  | .add ra rb => text2 "ADD" ra rb
  | .mul ra rb => text2 "MUL" ra rb
  | .push ra => text1 "PUSH" ra
  | .pop ra => text1 "POP" ra
  | .call ra => text1 "CALL" ra
  | .ret => "RET"
  | .cmp ra rb => text2 "CMP" ra rb
  | .jeq ra => text1 "JEQ" ra
  | .jne ra => text1 "JNE" ra
  | .jmp ra => text1 "JMP" ra
  | .addi ra rb => text2 "ADDI" ra rb
  | .sub ra rb => text2 "SUB" ra rb
  | .mod ra rb => text2 "MOD" ra rb
  | .not ra => text1 "NOT" ra
  | .and ra rb => text2 "AND" ra rb
  | .or ra rb => text2 "OR" ra rb
  | .xor ra rb => text2 "XOR" ra rb
  | .shl ra rb => text2 "SHL" ra rb
  | .shr ra rb => text2 "SHR" ra rb

end Sys2Proof.Machine
end

