-- ==== Sys2Proof/Tests/Slice0.lean ====
section
/-! SUPPORT. The model's own tests. Expected results come from spec/95_test_vectors.md (the vector's number stands in
the comment) and from the encodings of spec/30_encoding.md R86 and R89 (the opcode bits, written out); none was taken
from the model. Then, for every statement with hypotheses, one named witness that meets them. -/

namespace Sys2Proof.Tests
open Sys2Proof.Machine

/-- The state a step leads to, if it leads to one. -/
def after (s : State) : Option State :=
  match step s with
  | .next t => some t
  | _ => none

/-- One step from `s` with `bytes` placed at its `pc`. -/
def runs (s : State) (bytes : List Byte) : Option State := after (s.placeBytes s.pc.toNat bytes)

/-- A field of the state one step leads to. -/
def obs {α : Type} (s : State) (bytes : List Byte) (f : State → α) : Option α := (runs s bytes).map f

/-- The reset state of the core whose optional ALU rows are present. -/
def ext : State := State.resetWith Params.allNumbered

/-- Parameters with an ADDI opcode, the example byte of the spec's program P8. -/
def addiParams : Params := { opcAddi := some 0x2B, aluExt := false }

/-- The fault record of a state as a tuple. -/
def record (s : State) : Option (FaultKind × Option Byte × Nat × Int) :=
  s.fault.map fun r => (r.kind, r.opcode, r.pcAtFault.toNat, r.info)

/-! ## WellFormed: each check refuses an ill-formed term -/

theorem test_wellFormed_addi_absent : (Instr.addi 0 1).wellFormed Params.defaults = false := by decide
theorem test_wellFormed_aluExt_absent : (Instr.sub 0 1).wellFormed Params.defaults = false := by decide
theorem test_wellFormed_present :
    ((Instr.addi 0 1).wellFormed addiParams && (Instr.sub 0 1).wellFormed Params.allNumbered
      && (Instr.add 0 1).wellFormed Params.defaults) = true := by decide
theorem test_params_wf_collision : ({ opcAddi := some 0xA0, aluExt := false } : Params).wf = false := by decide
theorem test_params_wf_alu_collision : ({ opcAddi := some 0xA1, aluExt := true } : Params).wf = false := by decide

/-! ## Decode: every constructor, from a word written out bit by bit -/

theorem test_decode_hlt : decode .defaults 0b00000001 0b11111111 0b11111111 = .ok .hlt := by rfl
theorem test_decode_ldi : decode .defaults 0b10000010 0b00000011 0b11111111 = .ok (.ldi 3 255) := by rfl
theorem test_decode_prn : decode .defaults 0b01000111 0b00000010 0b11111111 = .ok (.prn 2) := by rfl
theorem test_decode_add : decode .defaults 0b10100000 0b00000111 0b00000001 = .ok (.add 7 1) := by rfl
theorem test_decode_mul : decode .defaults 0b10100010 0b00000000 0b00000110 = .ok (.mul 0 6) := by rfl
theorem test_decode_push : decode .defaults 0b01000101 0b00000101 0b00001000 = .ok (.push 5) := by rfl
theorem test_decode_pop : decode .defaults 0b01000110 0b00000111 0b11110000 = .ok (.pop 7) := by rfl
theorem test_decode_call : decode .defaults 0b01010000 0b00000001 0b01000111 = .ok (.call 1) := by rfl
theorem test_decode_ret : decode .defaults 0b00010001 0b10000010 0b00001001 = .ok .ret := by rfl
theorem test_decode_cmp : decode .defaults 0b10100111 0b00000100 0b00000011 = .ok (.cmp 4 3) := by rfl
theorem test_decode_jeq : decode .defaults 0b01010101 0b00000010 0b00000000 = .ok (.jeq 2) := by rfl
theorem test_decode_jne : decode .defaults 0b01010110 0b00000110 0b00000000 = .ok (.jne 6) := by rfl
theorem test_decode_jmp : decode .defaults 0b01010100 0b00000011 0b00000000 = .ok (.jmp 3) := by rfl
theorem test_decode_addi : decode addiParams 0b00101011 0b00000000 0b00000001 = .ok (.addi 0 1) := by rfl
theorem test_decode_sub : decode .allNumbered 0b10100001 0b00000000 0b00000001 = .ok (.sub 0 1) := by rfl
theorem test_decode_mod : decode .allNumbered 0b10100100 0b00000001 0b00000000 = .ok (.mod 1 0) := by rfl
theorem test_decode_not : decode .allNumbered 0b01101001 0b00000010 0b11111111 = .ok (.not 2) := by rfl
theorem test_decode_and : decode .allNumbered 0b10101000 0b00000010 0b00000011 = .ok (.and 2 3) := by rfl
theorem test_decode_or : decode .allNumbered 0b10101010 0b00000011 0b00000100 = .ok (.or 3 4) := by rfl
theorem test_decode_xor : decode .allNumbered 0b10101011 0b00000100 0b00000101 = .ok (.xor 4 5) := by rfl
theorem test_decode_shl : decode .allNumbered 0b10101100 0b00000101 0b00000110 = .ok (.shl 5 6) := by rfl
theorem test_decode_shr : decode .allNumbered 0b10101101 0b00000110 0b00000101 = .ok (.shr 6 5) := by rfl
/-- LDI's operand B is no register: 9 is allowed there (V3). -/
theorem test_decode_ldi_imm_9 : decode .defaults 0x82 0x00 0x09 = .ok (.ldi 0 9) := by rfl
/-- Operand A is checked before operand B (V14). -/
theorem test_decode_A_first : decode .defaults 0xA0 0x09 0x0A = .error (.registerIndex 9) := by rfl
theorem test_decode_B_checked : decode .defaults 0xA0 0x00 0x08 = .error (.registerIndex 8) := by rfl
/-- 0x83 is not LDI: the whole byte is matched (V72). -/
theorem test_decode_no_dont_care : decode .defaults 0x83 0x00 0x00 = .error (.illegalOpcode 0x83) := by rfl
theorem test_decode_sub_default : decode .defaults 0xA1 0x00 0x01 = .error (.illegalOpcode 0xA1) := by rfl
theorem test_encode_ldi : encode .defaults (.ldi 3 255) = some [0x82, 0x03, 0xFF] := by rfl
theorem test_encode_push : encode .defaults (.push 7) = some [0x45, 0x07] := by rfl
theorem test_encode_ret : encode .defaults .ret = some [0x11] := by rfl
theorem test_encode_addi_absent : encode .allNumbered (.addi 0 1) = none := by rfl

/-! ## Table words: decoded and run first after reset -/

theorem test_word_hlt : decodeTableWord 8 0x01 = some .hlt := by decide
theorem test_word_ldi : decodeTableWord 24 0xFF0382 = some (.ldi 3 255) := by decide
theorem test_word_sub : decodeTableWord 24 0x0100A1 = some (.sub 0 1) := by decide
theorem test_word_short : decodeTableWord 8 0xA0 = some (.add 0 0) := by decide
theorem test_fetchWord_hlt : (after (State.reset.withFetchWord 8 0x01)).map (·.run) = some .halted := by decide
theorem test_fetchWord_ldi : (after (State.reset.withFetchWord 24 0xFF0382)).map (·.getReg 3) = some 255 := by decide
theorem test_fetchWord_not : (after (State.reset.withFetchWord 16 0x0269)).map (·.getReg 2) = some 255 := by decide
theorem test_fetchWord_params :
    (State.reset.withFetchWord 8 0x01).params = Params.defaults ∧
    (State.reset.withFetchWord 24 0x0100A1).params = Params.allNumbered := by decide

/-! ## Machine control, immediate load, output -/

/-- V1. -/
theorem test_hlt : obs (State.reset.setPc 0x10) [0x01, 0xFF, 0xFF] (fun t => (t.run, t.pc)) = some (.halted, 0x10) := by
  decide
/-- V9. -/
theorem test_hlt_253 : obs (State.reset.setPc 253) [0x01] (fun t => (t.run, t.pc)) = some (.halted, 253) := by decide
/-- V2. -/
theorem test_ldi : obs State.reset [0x82, 0x03, 0xFF] (fun t => (t.getReg 3, t.pc)) = some (0xFF, 3) := by decide
/-- V4. -/
theorem test_ldi_sp : obs State.reset [0x82, 0x07, 0x10] State.sp = some 0x10 := by decide
/-- V6. -/
theorem test_prn : obs (State.reset.setReg 2 200) [0x47, 0x02, 0xFF] (fun t => (t.out, t.pc)) = some ([200], 2) := by
  decide
/-- V8. -/
theorem test_prn_255 : obs State.reset [0x47, 0xFF, 0x00] record =
    some (some (.registerIndexFault, some 0x47, 0, 255)) := by decide

/-! ## Arithmetic and logic -/

/-- V10. -/
theorem test_add : obs ((State.reset.setReg 0 200).setReg 1 100) [0xA0, 0x00, 0x01]
    (fun t => (t.getReg 0, t.pc, t.fl)) = some (44, 3, .unset) := by decide
/-- V12. -/
theorem test_add_sp : obs (State.reset.setReg 0 0x10) [0xA0, 0x07, 0x00] (fun t => (t.sp, t.run)) =
    some (0x04, .running) := by decide
/-- V17. -/
theorem test_mul : obs ((State.reset.setReg 0 255).setReg 1 255) [0xA2, 0x00, 0x01]
    (fun t => (t.getReg 0, t.getReg 1)) = some (1, 255) := by decide
/-- V16. -/
theorem test_mul_self : obs (State.reset.setReg 2 16) [0xA2, 0x02, 0x02] (fun t => (t.getReg 2, t.pc)) = some (0, 3) := by
  decide
/-- V24. -/
theorem test_addi : obs (((State.resetWith addiParams).setReg 0 5).setReg 1 3) [0x2B, 0x00, 0x01]
    (fun t => (t.getReg 0, t.pc)) = some (8, 2) := by decide
/-- V25. -/
theorem test_addi_absent : obs State.reset [0x2B, 0x00, 0x01] record =
    some (some (.illegalOpcode, some 0x2B, 0, 0x2B)) := by decide
/-- V19. -/
theorem test_sub : obs ((ext.setReg 0 5).setReg 1 10) [0xA1, 0x00, 0x01] (fun t => (t.getReg 0, t.pc)) =
    some (251, 3) := by decide
/-- V20. -/
theorem test_mod : obs ((ext.setReg 0 17).setReg 1 5) [0xA4, 0x00, 0x01] (fun t => (t.getReg 0, t.pc)) =
    some (2, 3) := by decide
/-- V21. -/
theorem test_mod_zero : obs (ext.setReg 0 17) [0xA4, 0x00, 0x01] record =
    some (some (.divisionByZero, some 0xA4, 0, 17)) := by decide
/-- V22. -/
theorem test_not : obs (ext.setReg 2 0x0F) [0x69, 0x02, 0xFF] (fun t => (t.getReg 2, t.pc)) = some (0xF0, 2) := by decide
/-- A16, A17, A18. -/
theorem test_and : obs ((ext.setReg 2 0xCC).setReg 3 0xAA) [0xA8, 0x02, 0x03] (·.getReg 2) = some 0x88 := by decide
theorem test_or : obs ((ext.setReg 2 0xCC).setReg 3 0xAA) [0xAA, 0x02, 0x03] (·.getReg 2) = some 0xEE := by decide
theorem test_xor : obs ((ext.setReg 2 0xCC).setReg 3 0xAA) [0xAB, 0x02, 0x03] (·.getReg 2) = some 0x66 := by decide
/-- V23 and A24. -/
theorem test_shl_8 : obs ((ext.setReg 0 0x81).setReg 1 8) [0xAC, 0x00, 0x01] (·.getReg 0) = some 0 := by decide
theorem test_shl_1 : obs ((ext.setReg 0 0x81).setReg 1 1) [0xAC, 0x00, 0x01] (·.getReg 0) = some 0x02 := by decide
/-- A31 and A29. -/
theorem test_shr_200 : obs ((ext.setReg 0 0xFF).setReg 1 200) [0xAD, 0x00, 0x01] (·.getReg 0) = some 0 := by decide
theorem test_shr_1 : obs ((ext.setReg 0 0x81).setReg 1 1) [0xAD, 0x00, 0x01] (·.getReg 0) = some 0x40 := by decide

/-! ## Stack and subroutine -/

/-- V31. -/
theorem test_push_sp : obs State.reset [0x45, 0x07] (fun t => (t.sp, memRead t.mem 0xF3)) = some (0xF3, some 0xF3) := by
  decide
/-- V33. -/
theorem test_push_overflow : obs ((State.reset.setPc 0x10).setSp 0) [0x45, 0x01] record =
    some (some (.stackOverflow, some 0x45, 0x10, 0)) := by decide
/-- V35. -/
theorem test_pop : obs ((State.reset.setSp 0xF3).placeBytes 0xF3 [0x99]) [0x46, 0x02] (fun t => (t.getReg 2, t.sp)) =
    some (0x99, 0xF4) := by decide
/-- V39. -/
theorem test_pop_sp : obs ((State.reset.setSp 0xF0).placeBytes 0xF0 [0xFF]) [0x46, 0x07] State.sp = some 0x00 := by decide
/-- V43. -/
theorem test_call_sp : obs (State.reset.setPc 6) [0x50, 0x07] (fun t => (t.pc, memRead t.mem 0xF3)) =
    some (0xF3, some 8) := by decide
/-- V45. -/
theorem test_call_252 : obs ((State.reset.setPc 252).setReg 1 0x20) [0x50, 0x01]
    (fun t => (t.pc, memRead t.mem 0xF3)) = some (0x20, some 0xFE) := by decide
/-- V47. -/
theorem test_ret : obs (((State.reset.setPc 15).setSp 0xF3).placeBytes 0xF3 [8]) [0x11] (fun t => (t.pc, t.sp)) =
    some (8, 0xF4) := by decide
/-- V48. -/
theorem test_ret_underflow : obs (State.reset.setPc 15) [0x11] record =
    some (some (.stackUnderflow, some 0x11, 15, 0xF4)) := by decide

/-! ## Compare and jumps -/

/-- V55. -/
theorem test_cmp_unsigned : obs ((State.reset.setReg 0 0x80).setReg 1 0x7F) [0xA7, 0x00, 0x01] (·.fl) =
    some .greaterThan := by decide
/-- V57. -/
theorem test_cmp_overwrites : obs (State.reset.setFl .lessThan) [0xA7, 0x04, 0x04] (fun t => (t.fl, t.pc)) =
    some (.equal, 3) := by decide
/-- The start state of the branch vectors. -/
def branch (f : Flags) : State := ((State.reset.setPc 0x20).setReg 2 0x40).setFl f
/-- V60 to V63 for JEQ. -/
theorem test_jeq : [Flags.unset, .equal, .lessThan, .greaterThan].map (fun f => obs (branch f) [0x55, 0x02] (·.pc)) =
    [some 0x22, some 0x40, some 0x22, some 0x22] := by decide
/-- V60 to V63 for JNE. -/
theorem test_jne : [Flags.unset, .equal, .lessThan, .greaterThan].map (fun f => obs (branch f) [0x56, 0x02] (·.pc)) =
    [some 0x40, some 0x22, some 0x40, some 0x40] := by decide
/-- V64. -/
theorem test_jmp : obs (((State.reset.setPc 0x20).setReg 3 0x80).setFl .equal) [0x54, 0x03] (fun t => (t.pc, t.fl)) =
    some (0x80, .equal) := by decide
/-- V67. -/
theorem test_jeq_checked : obs (branch .lessThan) [0x55, 0x09] record =
    some (some (.registerIndexFault, some 0x55, 0x20, 9)) := by decide
/-- R30. -/
theorem test_flag_bits : [Flags.unset, .equal, .greaterThan, .lessThan].map Flags.bits = [0, 1, 2, 4] := by decide

/-! ## Fetch, priority, reset and load -/

/-- V80. -/
theorem test_fetch_254 : obs (State.reset.setPc 254) [0x01] record = some (some (.addressFault, some 0x01, 254, 256)) := by
  decide
/-- V82. -/
theorem test_fetch_256 : obs (State.reset.setPc 256) [] record = some (some (.addressFault, none, 256, 256)) := by decide
/-- V83. -/
theorem test_ldi_253 : obs (State.reset.setPc 253) [0x82, 0x00, 0x07] (·.pc) = some 256 := by decide
/-- V41. -/
theorem test_priority_pop : obs State.reset [0x46, 0x09] record =
    some (some (.registerIndexFault, some 0x46, 0, 9)) := by decide
/-- V87. -/
theorem test_priority_mod : obs ext [0xA4, 0x00, 0x09] record =
    some (some (.registerIndexFault, some 0xA4, 0, 9)) := by decide
/-- V90. -/
theorem test_empty_load : ((State.reset.load []).bind after).map record =
    some (some (.illegalOpcode, some 0x00, 0, 0x00)) := by decide
/-- V91. -/
theorem test_load_hlt : ((State.reset.load [0x01]).bind after).map (fun t => (t.run, t.pc)) = some (.halted, 0) := by decide
/-- S1, program P1: three steps to HALTED, and the loop stays there with fuel to spare. -/
theorem test_run_S1 : [2, 3, 9].map (fun n => (runProgram .defaults [0x82, 0, 5, 0x47, 0, 0x01] n).map fun t =>
    (t.run, t.out)) = [some (.running, [5]), some (.halted, [5]), some (.halted, [5])] := by decide
/-- The codes of R200. -/
theorem test_codes : [FaultKind.addressFault, .divisionByZero, .illegalOpcode, .stackOverflow, .stackUnderflow,
    .registerIndexFault].map FaultKind.code = [1, 2, 3, 4, 5, 6] ∧ State.reset.faultCode = 0 := by decide
/-- S1: the printed line. -/
theorem test_output_line : obs (State.reset.setReg 0 5) [0x47, 0x00] State.outputLines = some ["5"] := by decide
/-- R219: zero after HLT, the fault code after a fault. -/
theorem test_exit_status : [[0x01], [0x47, 0x08]].map (fun bs => obs State.reset bs State.exitStatus) =
    [some (some 0), some (some 6)] := by decide
/-- R92. -/
theorem test_text : instrText (.ldi 0 5) = "LDI R0,5" ∧ instrText (.cmp 4 3) = "CMP R4,R3" := by decide
/-- R240: reset after a run leaves nothing of it. -/
theorem test_reset_after_run : (runs (State.reset.setReg 2 200) [0x47, 0x02]).map State.hostReset =
    some State.reset := by decide

/-! ## Witnesses: a state and operands that meet the hypotheses of each statement that has some -/

/-- The last address where an instruction executes. -/
def at253 : State := State.resetWith Params.allNumbered |>.setPc 253

/-- `at253` in a core that also has ADDI. -/
def at253i : State := (State.resetWith { Params.allNumbered with opcAddi := some 0x2B }).setPc 253

/-- A state with one byte on the stack. -/
def oneDeep : State := (State.reset.setSp 0xF3).placeBytes 0xF3 [8]

/-- The reset state with bytes placed at 0. -/
def loaded (bytes : List Byte) : State := State.reset.placeBytes 0 bytes

theorem witness_DecodeOfEncodeIsTheInstruction :
    at253i.params.wf = true ∧ encode at253i.params (.addi 7 0) = some [0x2B, 0x07, 0x00] ∧
    encode at253i.params .hlt = some [0x01] ∧ 2 ≤ ([0xFF, 0xFF] : List Byte).length := by decide
theorem witness_EncodeOfDecodeIsTheFetchedBytes : decode .defaults 0x82 0x07 0xFF = .ok (.ldi 7 0xFF) := by rfl
theorem witness_DispatchKeysAreTheTableBytes :
    Params.defaults.wf = true ∧ Params.allNumbered.wf = true ∧ at253i.params.wf = true ∧
    (0x2B : Byte) ∈ dispatchKeys at253i.params ∧ (0xA1 : Byte) ∉ dispatchKeys .defaults := by decide
theorem witness_EncodedWidthAndOperandCount :
    encode .allNumbered (.not 7) = some [0x69, 0x07] ∧ ∀ ra rb, Instr.not 7 ≠ .addi ra rb :=
  ⟨rfl, fun _ _ h => by cases h⟩
theorem witness_StepRunsTheDecodedInstruction : ∃ s : State, s.run = .running ∧ s.pc.toNat = 253 ∧
    memRead s.mem s.pc.toNat = some 0xA0 ∧ memRead s.mem (s.pc.toNat + 1) = some 7 ∧
    memRead s.mem (s.pc.toNat + 2) = some 0 ∧ decode s.params 0xA0 7 0 = .ok (.add 7 0) :=
  ⟨at253.placeBytes 253 [0xA0, 7, 0], by decide, by decide, by decide, by decide, by decide, rfl⟩
/-- The three reads of `loaded` triples, one for each clause. -/
def reads (a b c : Byte) : Bool := (loaded [a, b, c]).run = .running ∧ memRead (loaded [a, b, c]).mem 0 = some a ∧
  memRead (loaded [a, b, c]).mem 1 = some b ∧ memRead (loaded [a, b, c]).mem 2 = some c
theorem witness_NonKeyByteRaisesIllegalOpcode : reads 0x00 0 0 = true ∧ reads 0xFF 9 9 = true ∧
    (0x00 : Byte) ∉ dispatchKeys .defaults ∧ (0xFF : Byte) ∉ dispatchKeys .defaults := by decide
theorem witness_OperandCheckAfterDispatch_reads : reads 0xA0 8 0 = true ∧ reads 0xA0 7 8 = true ∧
    reads 0xA0 7 7 = true ∧ reads 0x82 7 8 = true ∧ (0xA0 : Byte) ∈ dispatchKeys .defaults ∧
    (0x82 : Byte) ∈ dispatchKeys .defaults := ⟨by decide, by decide, by decide, by decide, by decide, by decide⟩
/-- What happens on those byte triples: operand A's fault, operand B's, none, none (LDI's B is no register). -/
theorem witness_OperandCheckAfterDispatch_clauses : [[0xA0, 8, 0], [0xA0, 7, 8], [0xA0, 7, 7], [0x82, 7, 8]].map
    (fun bs => (after (loaded bs)).bind fun t => t.fault.map fun r => (r.kind, r.info)) =
    [some (.registerIndexFault, 8), some (.registerIndexFault, 8), none, none] := by decide
theorem witness_FetchPastMemoryRaisesAddressFault : ∀ q ∈ ([254, 255, 256] : List Pc),
    (State.reset.setPc q).run = .running ∧ 254 ≤ (State.reset.setPc q).pc.toNat ∧ (State.reset.setPc q).pc.toNat ≤ 256 := by
  decide
theorem witness_FaultsArePrecise : State.reset.run = .running ∧ (after State.reset).map (·.run) = some .faulted := by decide
/-- A fault with an opcode byte to record and, at `pc` 256, one without. -/
theorem witness_FaultEntryWritesTheRecord : [at253, State.reset.setPc 256].map
    (fun s => (s.run, (after s).bind fun t => t.fault.map (·.opcode))) =
    [(.running, some (some 0)), (.running, some none)] := by decide
theorem reset_recordTrue (p : Params) : (State.resetWith p).RecordTrue := fun _ h => by cases h
theorem witness_InvariantKeptByEveryStep : State.reset.Inv ∧ (after State.reset).isSome = true ∧
    (at253.Inv ∧ (after at253).isSome = true) := by decide
/-- Both sides of the RegisterIndexFault clause: operand A's byte, and operand B's after a good operand A. -/
theorem witness_FaultRecordStaysTrue_operands : [[0xA0, 8, 0], [0xA0, 7, 8]].map
    (fun bs => (decide (loaded bs).Inv, (after (loaded bs)).bind fun t => t.fault.map fun r => (r.kind, r.info))) =
    [(true, some (.registerIndexFault, 8)), (true, some (.registerIndexFault, 8))] := by decide
/-- Each of the six kinds is raised by a step from a state that meets both invariants (no record yet). -/
theorem witness_FaultRecordStaysTrue : [State.reset.setPc 256, ext.placeBytes 0 [0xA4], State.reset,
    (loaded [0x45]).setSp 0, loaded [0x11], loaded [0x47, 8]].map
    (fun s => (decide s.Inv, s.fault.isNone, (after s).bind fun t => t.fault.map (·.kind))) =
    [(true, true, some .addressFault), (true, true, some .divisionByZero), (true, true, some .illegalOpcode),
     (true, true, some .stackOverflow), (true, true, some .stackUnderflow), (true, true, some .registerIndexFault)] := by
  decide
theorem witness_ResetMeetsTheInvariants : Params.defaults.wf = true ∧ at253i.params.wf = true := by decide
theorem witness_RunningStepAnswersNextState : State.reset.run = .running := by decide
theorem witness_RunStateTransitions : [loaded [0x01], State.reset, loaded [0x82]].map
    (fun s => (decide s.Inv, s.run, (after s).map (·.run))) =
    [(true, .running, some .halted), (true, .running, some .faulted), (true, .running, some .running)] ∧
    (State.reset.setRun .halted).run ≠ .running := by decide
/-- A run that ends HALTED, one that ends FAULTED, and one that never ends, the jump to itself of V65. -/
theorem witness_RunStateTransitions_halted : (loaded [0x01]).RunEndsIn ((loaded [0x01]).setRun .halted) :=
  ⟨by decide, 1, by decide⟩
theorem witness_RunStateTransitions_faulted : ∃ t, State.reset.RunEndsIn t ∧ t.run = .faulted :=
  ⟨State.reset.runSteps 1, ⟨by decide, 1, rfl⟩, by decide⟩
theorem witness_RunStateTransitions_forever : (loaded [0x54, 0]).RunsForever := fun k => by
  have hs : step (loaded [0x54, 0]) = .next (loaded [0x54, 0]) := rfl
  have hk : (loaded [0x54, 0]).runSteps k = loaded [0x54, 0] := by
    induction k with
    | zero => rfl
    | succ k ih => rw [State.runSteps_next _ _ hs, ih]
  rw [hk]; decide
theorem witness_TerminalStatesStopByName : (State.reset.setRun .halted).run = .halted ∧
    (State.reset.setRun .faulted).run = .faulted := by decide
/-- The bound on `pc` of the instruction statements is met at 0 and, with equality, at 253. -/
theorem witness_pc_bound : State.reset.pc.toNat ≤ 253 ∧ at253.pc.toNat = 253 := by decide
theorem witness_LdiLoadsTheImmediate : obs at253 [0x82, 7, 0xFF] (fun t => (t.sp, t.pc)) = some (0xFF, 256) := by decide
theorem witness_PrnAppendsToOutput : obs at253 [0x47, 7] (fun t => (t.out, t.pc)) = some ([0xF4], 255) := by decide
theorem witness_AluFunctionsCompute : (1 : Byte) ≠ 0 ∧ (0 : Byte) = 0 := by decide
theorem witness_AddAddsModulo256 : obs at253 [0xA0, 7, 7] (fun t => (t.sp, t.pc)) = some (0xE8, 256) := by decide
theorem witness_MulMultipliesModulo256 : obs at253 [0xA2, 7, 7] (fun t => (t.sp, t.pc)) = some (0x90, 256) := by decide
theorem witness_AddiAddsARegisterAndAdvancesTwo : obs at253i [0x2B, 7, 7] (fun t => (t.sp, t.pc)) = some (0xE8, 255) := by
  decide
theorem witness_SubSubtractsModulo256 : obs at253 [0xA1, 0, 7] (fun t => (t.getReg 0, t.pc)) = some (0x0C, 256) := by
  decide
theorem witness_ModLeavesTheRemainder : at253.getReg 7 ≠ 0 ∧
    obs at253 [0xA4, 7, 7] (fun t => (t.sp, t.pc)) = some (0, 256) := by decide
theorem witness_ModByZeroRaisesDivisionByZero : at253.getReg 0 = 0 := by decide
theorem witness_NotComplements : obs at253 [0x69, 7] (fun t => (t.sp, t.pc)) = some (0x0B, 255) := by decide
theorem witness_AndOrXorWorkBitByBit : [0xA8, 0xAA, 0xAB].map (fun b => obs at253 [b, 0, 7] (fun t => (t.getReg 0, t.pc))) =
    [some (0, 256), some (0xF4, 256), some (0xF4, 256)] := by decide
/-- Shift amounts at the clause's boundary, 7 and 8. -/
theorem witness_ShiftsTakeTheWholeAmount : [7, 8].map (fun n => [0xAC, 0xAD].map fun b =>
    obs ((at253.setReg 0 0x81).setReg 1 n) [b, 0, 1] (·.getReg 0)) = [[some 0x80, some 1], [some 0, some 0]] := by decide
/-- SP at both ends of PUSH's range, 1 and 255. -/
theorem witness_PushStoresBelowSp : ∀ v ∈ ([1, 255] : List Byte), (at253.setSp v).pc.toNat ≤ 253 ∧
    Memory.wf (at253.setSp v).mem ∧ (at253.setSp v).sp ≠ 0 := by decide
theorem witness_PushAndCallAtZeroOverflow : (at253.setSp 0).sp = 0 := by decide
/-- SP at both ends of POP's range, 0 and 0xF3, with R7 and another register as the destination. -/
theorem witness_PopLoadsFromSp : ∀ v ∈ ([0, 0xF3] : List Byte), (at253.setSp v).pc.toNat ≤ 253 ∧
    (at253.setSp v).sp.toNat < 0xF4 := by decide
theorem witness_PopLoadsFromSp_clauses : [0, 7].map (fun r => obs oneDeep [0x46, r] State.sp) =
    [some 0xF4, some 9] := by decide
/-- SP at both ends of the underflow range, 0xF4 and 0xFF. -/
theorem witness_PopAndRetOnEmptyStackUnderflow : ∀ v ∈ ([0xF4, 0xFF] : List Byte), 0xF4 ≤ (at253.setSp v).sp.toNat := by
  decide
theorem witness_CallPushesReturnAddressAndJumps : at253.pc.toNat ≤ 253 ∧ Memory.wf at253.mem ∧ at253.sp ≠ 0 ∧
    obs at253 [0x50, 7] (fun t => (t.pc, memRead t.mem 0xF3)) = some (0xF3, some 0xFF) := by decide
theorem witness_RetJumpsToThePoppedByte : oneDeep.sp.toNat < 0xF4 ∧ (State.reset.setSp 0).sp.toNat < 0xF4 := by decide
theorem witness_CallThenRetResumesAfterTheCall : ∃ s t u : State, s.pc.toNat ≤ 253 ∧ Memory.wf s.mem ∧ s.sp ≠ 0 ∧
    s.sp.toNat ≤ 0xF4 ∧ exec (.call 1) s = .next t ∧ u.sp = t.sp ∧ memRead u.mem u.sp.toNat = memRead t.mem u.sp.toNat ∧
    u ≠ t := ⟨at253, _, State.setReg _ 2 9, by decide, by decide, by decide, by decide, rfl, rfl, rfl, by decide⟩
theorem witness_PushThenPopGivesTheValueBack : ∃ s t u : State, (1 : Reg) ≠ 7 ∧ Memory.wf s.mem ∧ s.sp ≠ 0 ∧
    s.sp.toNat ≤ 0xF4 ∧ exec (.push 1) s = .next t ∧ u.sp = t.sp ∧ memRead u.mem u.sp.toNat = memRead t.mem u.sp.toNat ∧
    u ≠ t := ⟨at253, _, State.setReg _ 1 9, by decide, by decide, by decide, by decide, rfl, rfl, rfl, by decide⟩
theorem witness_CompletedPopLeavesSpAtMostTop : ∃ t u : State, oneDeep.run = .running ∧ exec .ret oneDeep = .next t ∧
    t.run ≠ .faulted ∧ exec (.pop 2) oneDeep = .next u ∧ u.run ≠ .faulted :=
  ⟨_, _, by decide, rfl, by decide, rfl, by decide⟩
/-- A PUSH at 1 with SP = 4 stores its byte at 3, where the next step fetches. -/
theorem witness_PushedByteIsTheNextOpcode : ∃ s t : State, Memory.wf s.mem ∧ s.sp ≠ 0 ∧ exec (.push 0) s = .next t ∧
    (s.sp - 1).toNat = t.pc.toNat ∧ memRead t.mem (t.pc.toNat + 1) = some 0 ∧ memRead t.mem (t.pc.toNat + 2) = some 0 :=
  ⟨(State.reset.setSp 4).setPc 1, _, by decide, by decide, rfl, by decide, by decide, by decide⟩
/-- The three outcomes of a comparison at `pc` 253. -/
theorem witness_CmpSetsTheFlags : [[0xA7, 0, 0], [0xA7, 0, 7], [0xA7, 7, 0]].map (fun bs => obs at253 bs (·.fl)) =
    [some .equal, some .lessThan, some .greaterThan] := by decide
theorem witness_JeqJumpsExactlyWhenEqual : [Flags.equal, .unset].map (fun f => obs (at253.setFl f) [0x55, 7] (·.pc)) =
    [some 0xF4, some 255] := by decide
theorem witness_JneJumpsExactlyWhenNotEqual : [Flags.equal, .unset].map (fun f => obs (at253.setFl f) [0x56, 7] (·.pc)) =
    [some 255, some 0xF4] := by decide
theorem witness_OnlyCmpWritesAndOnlyJumpsReadFlags : ∃ t u : State, exec (.push 0) at253 = .next t ∧
    (∀ ra rb, Instr.push 0 ≠ .cmp ra rb) ∧ (∀ ra, Instr.push 0 ≠ .jeq ra) ∧ (∀ ra, Instr.push 0 ≠ .jne ra) ∧
    exec (.cmp 0 1) at253 = .next u ∧ (∀ ra, Instr.cmp 0 1 ≠ .jeq ra) ∧ (∀ ra, Instr.cmp 0 1 ≠ .jne ra) ∧
    ∃ ra rb, Instr.cmp 0 1 = .cmp ra rb :=
  ⟨_, _, rfl, by decide, by decide, by decide, rfl, by decide, by decide, 0, 1, rfl⟩
theorem witness_FlagsPersistUntilTheNextCompare : (after (loaded [0x82, 0, 9])).isSome = true ∧
    (loaded [0x82, 0, 9]).fetchDecode = .instr (.ldi 0 9) ∧ ((loaded [0x82, 0, 9]).setFl .lessThan).fl ≠ .unset := by decide
theorem witness_OnlyPushAndCallWriteMemory : ∃ t : State, Memory.wf at253.mem ∧ exec (.push 7) at253 = .next t ∧
    memRead t.mem 0xF3 ≠ memRead at253.mem 0xF3 := ⟨_, by decide, rfl, by decide⟩
theorem witness_OnlyPopAndRetReadData : ∃ t u : State, exec (.prn 7) oneDeep = .next t ∧ exec (.pop 2) oneDeep = .next u ∧
    memRead ((0, 9) :: oneDeep.mem) oneDeep.sp.toNat = memRead oneDeep.mem oneDeep.sp.toNat ∧
    (∀ ra, Instr.pop 2 ≠ .push ra) ∧ (∀ ra, Instr.pop 2 ≠ .call ra) := ⟨_, _, rfl, rfl, by decide, by decide, by decide⟩
/-- PUSH and CALL in another memory, with SP at both sides of their clauses: 0xF4 and 0. -/
theorem witness_OnlyPopAndRetReadData_pushes : ∃ t u : State, exec (.push 7) at253 = .next t ∧
    exec (.call 1) (at253.setSp 0) = .next u ∧ Memory.wf at253.mem ∧ Memory.wf ([(0, 9), (0xF3, 8)] : Memory) ∧
    at253.sp ≠ 0 ∧ (at253.setSp 0).sp = 0 := ⟨_, _, rfl, rfl, by decide, by decide, by decide, by decide⟩
theorem witness_OutputGrowsByPrnAlone : (loaded [0x47, 7]).fetchDecode = .instr (.prn 7) ∧
    (after (loaded [0x47, 7])).isSome = true ∧ (after (loaded [0x82, 0, 9])).isSome = true := by decide
theorem witness_OnlyTableRegistersAreWritten : ∃ t : State, exec (.pop 2) oneDeep = .next t := ⟨_, rfl⟩
/-- A completed MOD and a faulting one, both at `pc` 253. -/
theorem witness_PcAdvanceTable : ∃ t u : State, at253.run = .running ∧ at253.pc.toNat ≤ 253 ∧
    exec (.mod 0 7) at253 = .next t ∧ t.run ≠ .faulted ∧ exec (.mod 7 0) at253 = .next u ∧ u.run = .faulted :=
  ⟨_, _, by decide, by decide, rfl, by decide, rfl, by decide⟩
theorem witness_DispatchTableNeverChanges : (after State.reset).isSome = true ∧
    (State.reset.load [0x01]).isSome = true := by decide
/-- ADDI R7, R1 at 251, the highest address the statement covers, and operand byte B = 0x01. -/
theorem witness_AddiOperandByteRunsAsTheNextOpcode : ∃ s : State, s.run = .running ∧ s.params.wf = true ∧
    s.params.opcAddi = some 0x2B ∧ s.pc.toNat = 251 ∧ memRead s.mem s.pc.toNat = some 0x2B ∧
    memRead s.mem (s.pc.toNat + 1) = some 7 ∧ memRead s.mem (s.pc.toNat + 2) = some 0x01 :=
  ⟨((State.resetWith addiParams).setPc 251).placeBytes 251 [0x2B, 7, 1], by decide, by decide, by decide, by decide,
    by decide, by decide, by decide⟩
/-- Both sides of both bounds of memory. -/
theorem witness_AccessorsFailOutsideMemory : [-1, 0, 255, 256].map (fun a => (memRead State.reset.mem a).isSome) =
    [false, true, true, false] := by decide
theorem witness_ReadReturnsTheLastWrite : ∃ t u : State, Memory.wf State.reset.mem ∧
    State.reset.storeByte 255 0xFF = .ok t ∧ State.reset.storeByte 0 0 = .ok u := ⟨_, _, by decide, rfl, rfl⟩
theorem witness_LoadPlacesTheProgram : ([] : List Byte).length ≤ 256 ∧ (List.replicate 256 (1 : Byte)).length ≤ 256 :=
  ⟨Nat.zero_le _, Nat.le_of_eq List.length_replicate⟩
theorem witness_OversizeImageIsNotLoaded : 256 < (List.replicate 257 (1 : Byte)).length :=
  Nat.lt_of_lt_of_eq (Nat.lt_succ_self 256) List.length_replicate.symm
theorem witness_ResetValues : (3 : Reg) ≠ 7 ∧ (at253.setReg 3 9).params = at253.params := by decide

end Sys2Proof.Tests
end

section
/-! PROOFS. The statements about the state (10_state.md): first what a step and an instruction do to each component of
the state, said once, then the obligations. -/

namespace Sys2Proof.Machine

/-! ## Steps in terms of the fetched instruction -/

/-- A step with a fetched instruction executes it (R114). -/
theorem exec_of_step {s t : State} {i : Instr} (h : step s = .next t) (hi : s.fetchDecode = .instr i) :
    exec i s = .next t := by
  obtain ⟨-, ⟨j, hj, he⟩ | ⟨o, c, hr, -⟩⟩ := step_cases s t h
  · rw [hj] at hi
    exact Fetched.instr.inj hi ▸ he
  · rw [hr] at hi
    cases hi

/-- A step keeps a component that fault entry keeps and that the fetched instruction keeps. -/
theorem step_keeps {α : Type} (get : State → α) {s t : State} (hraise : ∀ o c, get (s.raise o c) = get s)
    (hexec : ∀ i, s.fetchDecode = .instr i → exec i s = .next t → get t = get s) (h : step s = .next t) :
    get t = get s := by
  obtain ⟨-, ⟨i, hi, he⟩ | ⟨o, c, -, rfl⟩⟩ := step_cases s t h
  · exact hexec i hi he
  · exact hraise o c

/-! ## The program counter -/

/-- A jump target is the register's value (R26). -/
theorem State.target_toNat (s : State) (r : Reg) : (s.target r).toNat = (s.getReg r).toNat := zext9_toNat _

/-- A byte put into `pc` is at most 256. -/
theorem zext9_le (v : Byte) : (zext9 v).toNat ≤ 256 := by
  rw [zext9_toNat]; omega

/-- An advance of at most 3 from where an instruction executes stays at 256 or below (R25, R27). -/
theorem State.advance_pc_le (s : State) (n : Pc) (hn : n.toNat ≤ 3) (h : s.pc.toNat ≤ 253) :
    (s.advance n).pc.toNat ≤ 256 := by
  rw [s.advance_pc_toNat n hn h]; omega

/-- An instruction executed at 253 or below leaves `pc` at 256 or below (R25, R27). -/
theorem exec_pc_le {i : Instr} {s t : State} (h : exec i s = .next t) (hpc : s.pc.toNat ≤ 253) :
    t.pc.toNat ≤ 256 := by
  cases exec_effect i s t h with
  | raise | hlt => exact hpc.trans (by decide)
  | call | ret | jmp => exact zext9_le _
  | jeq | jne =>
    split
    · exact zext9_le _
    · exact State.advance_pc_le _ _ (by decide) hpc
  | _ => exact State.advance_pc_le _ _ (by decide) hpc

/-- A running instruction that faults leaves `pc` (R26, R211). -/
theorem exec_pc_of_faulted {i : Instr} {s t : State} (hr : s.run = .running) (h : exec i s = .next t)
    (hf : t.run = .faulted) : t.pc = s.pc := by
  obtain ⟨o, c, -, rfl⟩ | ⟨-, -, hrun | ⟨-, hrun⟩⟩ := exec_control i s t h
  · rfl
  · simp [hr, hf] at hrun
  · simp [hf] at hrun

/-! ## Memory -/

/-- An instruction keeps memory, or it is a PUSH or CALL that writes the cell below SP (R34, R53). -/
theorem exec_mem {i : Instr} {s t : State} (h : exec i s = .next t) :
    t.mem = s.mem ∨ ((∃ ra, i = .push ra ∨ i = .call ra) ∧ s.sp ≠ 0 ∧
      ∃ v, t.mem = Memory.update s.mem (s.sp - 1).toNat v) := by
  cases exec_effect i s t h with
  | push ra hs => exact .inr ⟨⟨ra, .inl rfl⟩, hs, _, rfl⟩
  | call ra hs => exact .inr ⟨⟨ra, .inr rfl⟩, hs, _, rfl⟩
  | jeq | jne => exact .inl (by split <;> rfl)
  | _ => exact .inl rfl

/-- An instruction keeps the canonical form of memory. -/
theorem exec_mem_wf {i : Instr} {s t : State} (h : exec i s = .next t) (hm : Memory.wf s.mem) : Memory.wf t.mem := by
  obtain he | ⟨-, -, v, he⟩ := exec_mem h
  · rwa [he]
  · rw [he]
    exact Memory.update_wf s.mem hm _ (s.sp - 1).isLt v

/-! ## Parameters, `run` and the fault record -/

/-- An instruction keeps the parameters (R35). -/
theorem exec_params {i : Instr} {s t : State} (h : exec i s = .next t) : t.params = s.params := by
  obtain ⟨o, c, -, rfl⟩ | ⟨-, hp, -⟩ := exec_control i s t h
  · rfl
  · exact hp

/-- A step keeps the parameters (R35). -/
theorem step_params {s t : State} (h : step s = .next t) : t.params = s.params :=
  step_keeps State.params (fun _ _ => rfl) (fun _ _ => exec_params) h

/-- A load keeps the parameters (R35, R242). -/
theorem State.loadFrom_params {s t : State} {a : Int} {bs : List Byte} (h : s.loadFrom a bs = some t) :
    t.params = s.params := by
  induction bs generalizing s a with
  | nil => rw [Option.some.inj h]
  | cons b rest ih =>
    rw [State.loadFrom] at h
    split at h
    next m _ => exact ih (s := { s with mem := m }) h
    next => cases h

/-- A running instruction leaves a fault record exactly if it faults (R31, R32). -/
theorem exec_faulted_iff {i : Instr} {s t : State} (hr : s.run = .running) (hn : s.fault = none)
    (h : exec i s = .next t) : t.run = .faulted ↔ t.fault.isSome = true := by
  obtain ⟨o, c, -, rfl⟩ | ⟨hf, -, hrun | ⟨-, hrun⟩⟩ := exec_control i s t h
  · simp
  · simp [hrun, hr, hf, hn]
  · simp [hrun, hf, hn]

/-- HLT alone halts (R31). -/
theorem exec_halted_iff {i : Instr} {s t : State} (hr : s.run = .running) (h : exec i s = .next t) :
    t.run = .halted ↔ i = .hlt := by
  constructor
  · intro ht
    obtain ⟨o, c, -, rfl⟩ | ⟨-, -, hrun | ⟨hi, -⟩⟩ := exec_control i s t h
    · cases ht
    · simp [ht, hr] at hrun
    · exact hi
  · rintro rfl
    cases h
    rfl

/-- A running state that meets the invariant has no fault record (R32). -/
theorem State.Inv.fault_none {s : State} (hs : s.Inv) (hr : s.run = .running) : s.fault = none := by
  obtain ⟨-, -, -, hf⟩ := hs
  simpa [hr] using hf

/-- Settles O14: a fetched instruction keeps each of the four clauses, and so does a fault taken in its place. -/
theorem invariantKeptByEveryStep : Obligations.InvariantKeptByEveryStep := by
  intro s t hs h
  obtain ⟨hr, ⟨i, hi, he⟩ | ⟨o, c, -, rfl⟩⟩ := step_cases s t h
  · have hn : s.fault = none := hs.fault_none hr
    obtain ⟨-, hmem, hpar, -⟩ := hs
    exact ⟨exec_pc_le he (s.fetchDecode_instr i hi), exec_mem_wf he hmem, exec_params he ▸ hpar,
      exec_faulted_iff hr hn he⟩
  · obtain ⟨hpc, hmem, hpar, -⟩ := hs
    exact ⟨hpc, hmem, hpar, by simp⟩

/-! ## Runs -/

/-- A step halts exactly if it runs an HLT (R31). -/
theorem step_halted_iff {s t : State} (h : step s = .next t) : t.run = .halted ↔ s.fetchDecode = .instr .hlt := by
  obtain ⟨hr, ⟨i, hi, he⟩ | ⟨o, c, hc, rfl⟩⟩ := step_cases s t h
  · rw [exec_halted_iff hr he, hi, Fetched.instr.injEq]
  · simp [hc]

/-- A run that is not endless ends (R116). -/
theorem State.runsForever_or_ends (s : State) : s.RunsForever ∨ ∃ t, s.RunEndsIn t := by
  by_cases h : s.RunsForever
  · exact .inl h
  · obtain ⟨fuel, hf⟩ := not_forall.1 h
    exact .inr ⟨_, hf, fuel, rfl⟩

/-- A run that ends is not endless (R116). -/
theorem State.RunEndsIn.not_runsForever {s t : State} (h : s.RunEndsIn t) : ¬ s.RunsForever := by
  obtain ⟨ht, fuel, rfl⟩ := h
  exact fun hall => ht (hall fuel)

/-- More fuel than a run needs changes nothing: an ended run stays where it ended (R31, R116). -/
theorem State.RunEndsIn.unique {s t u : State} (ht : s.RunEndsIn t) (hu : s.RunEndsIn u) : u = t := by
  obtain ⟨htr, j, hj⟩ := ht
  obtain ⟨hur, k, hk⟩ := hu
  calc u = u.runSteps j := (u.runSteps_stopped hur j).symm
    _ = s.runSteps (k + j) := by rw [s.runSteps_add, hk]
    _ = s.runSteps (j + k) := by rw [Nat.add_comm]
    _ = t.runSteps k := by rw [s.runSteps_add, hj]
    _ = t := t.runSteps_stopped htr k

/-- Settles O17: the first clause is what a step does to `run`, the last two are that an ended run stays ended. -/
theorem runStateTransitions : Obligations.RunStateTransitions := by
  refine ⟨fun s t hs _ h => ⟨step_halted_iff h, ?_⟩, fun s hs t h => hs (step_cases s t h).1, fun _ => rfl,
    State.runsForever_or_ends, fun s t h => ⟨?_, h.not_runsForever, fun _ => h.unique⟩⟩
  · obtain ⟨-, -, -, hf⟩ := invariantKeptByEveryStep s t hs h
    exact hf
  · obtain ⟨ht, -⟩ := h
    cases hr : t.run with
    | running => exact absurd hr ht
    | halted => exact .inl rfl
    | faulted => exact .inr rfl

/-! ## The flags -/

/-- A comparison never gives UNSET (R28, R190). -/
theorem compareFlags_ne_unset (a b : Byte) : compareFlags a b ≠ .unset := by
  unfold compareFlags
  split
  · decide
  · split <;> decide

/-- Only CMP writes `FL` (R29). -/
theorem exec_fl_of_ne_cmp {i : Instr} {s t : State} (h : exec i s = .next t) (hi : ∀ ra rb, i ≠ .cmp ra rb) :
    t.fl = s.fl := by
  cases exec_effect i s t h with
  | cmp ra rb => exact absurd rfl (hi ra rb)
  | jeq | jne => split <;> rfl
  | _ => rfl

/-- CMP never leaves UNSET (R28). -/
theorem execCmp_fl_ne_unset {ra rb : Reg} {s t : State} (h : exec (.cmp ra rb) s = .next t) : t.fl ≠ .unset := by
  cases h
  exact compareFlags_ne_unset _ _

@[simp] theorem State.setFl_sp (s : State) (f : Flags) : (s.setFl f).sp = s.sp := rfl

/-- The end of an ALU instruction does not look at `FL` and passes it on, whether the ALU answers or fails. -/
theorem State.complete_aluInto_setFl {s t : State} {o : Option Byte} {g : AluFn} {ra : Reg} {b : Byte} {n : Pc}
    (h : s.complete o (s.aluInto g ra b n) = .next t) (f : Flags) :
    (s.setFl f).complete o ((s.setFl f).aluInto g ra b n) = .next (t.setFl f) := by
  rw [State.aluInto] at h ⊢
  rw [State.setFl_getReg]
  split at h <;> cases h <;> rfl

/-- PUSH at SP = 0 faults (R170, R204). -/
theorem execPush_zero (ra : Reg) (s : State) (h : s.sp = 0) :
    execPush ra s = .next (s.raise (some opcPush) ⟨.stackOverflow, 0⟩) := by
  rw [execPush, State.push_zero s _ h, State.complete_error]

/-- CALL at SP = 0 faults (R180, R204). -/
theorem execCall_zero (ra : Reg) (s : State) (h : s.sp = 0) :
    execCall ra s = .next (s.raise (some opcCall) ⟨.stackOverflow, 0⟩) := by
  rw [execCall, State.push_zero s _ h, State.complete_error]

/-- POP with an empty stack faults (R171, R205). -/
theorem execPop_empty (ra : Reg) (s : State) (h : popBound ≤ s.sp) :
    execPop ra s = .next (s.raise (some opcPop) ⟨.stackUnderflow, s.sp.toNat⟩) := by
  rw [execPop, State.stackTopByte_empty s h, State.complete_error]

/-- RET with an empty stack faults (R181, R205). -/
theorem execRet_empty (s : State) (h : popBound ≤ s.sp) :
    execRet s = .next (s.raise (some opcRet) ⟨.stackUnderflow, s.sp.toNat⟩) := by
  rw [execRet, State.stackTopByte_empty s h, State.complete_error]

/-- An instruction other than CMP, JEQ and JNE does the same whatever `FL` was, and passes `FL` on (R29): those that can
fault test SP or the divisor, never `FL`. -/
theorem exec_setFl {i : Instr} {s t : State} (h : exec i s = .next t) (hcmp : ∀ ra rb, i ≠ .cmp ra rb)
    (hjeq : ∀ ra, i ≠ .jeq ra) (hjne : ∀ ra, i ≠ .jne ra) (f : Flags) :
    exec i (s.setFl f) = .next (t.setFl f) := by
  cases i with
  | cmp ra rb => exact absurd rfl (hcmp ra rb)
  | jeq ra => exact absurd rfl (hjeq ra)
  | jne ra => exact absurd rfl (hjne ra)
  | mod ra rb => exact State.complete_aluInto_setFl h f
  | push ra =>
    by_cases hs : s.sp = 0
    · cases (execPush_zero ra s hs).symm.trans h
      exact execPush_zero ra (s.setFl f) hs
    · cases (execPush_pos ra s hs).symm.trans h
      exact execPush_pos ra (s.setFl f) hs
  | call ra =>
    by_cases hs : s.sp = 0
    · cases (execCall_zero ra s hs).symm.trans h
      exact execCall_zero ra (s.setFl f) hs
    · cases (execCall_pos ra s hs).symm.trans h
      exact execCall_pos ra (s.setFl f) hs
  | pop ra =>
    by_cases hs : popBound ≤ s.sp
    · cases (execPop_empty ra s hs).symm.trans h
      exact execPop_empty ra (s.setFl f) hs
    · cases (execPop_full ra s hs).symm.trans h
      exact execPop_full ra (s.setFl f) hs
  | ret =>
    by_cases hs : popBound ≤ s.sp
    · cases (execRet_empty s hs).symm.trans h
      exact execRet_empty (s.setFl f) hs
    · cases (execRet_full s hs).symm.trans h
      exact execRet_full (s.setFl f) hs
  | _ => cases h; rfl

/-- CMP reaches the same state whatever `FL` was (R29). -/
theorem execCmp_setFl (ra rb : Reg) (s : State) (f : Flags) : exec (.cmp ra rb) (s.setFl f) = exec (.cmp ra rb) s := rfl

/-- Settles O46: CMP overwrites `FL`, JEQ and JNE are left out, and every other instruction passes `FL` on. -/
theorem onlyCmpWritesAndOnlyJumpsReadFlags : Obligations.OnlyCmpWritesAndOnlyJumpsReadFlags := by
  refine ⟨fun _ _ _ => exec_fl_of_ne_cmp, fun _ _ _ _ => execCmp_fl_ne_unset, fun i s t f h hjeq hjne => ?_⟩
  by_cases hcmp : ∃ ra rb, i = .cmp ra rb
  · obtain ⟨ra, rb, rfl⟩ := hcmp
    exact ⟨t, (execCmp_setFl ra rb s f).trans h, rfl, fun _ => rfl⟩
  · have hne : ∀ ra rb, i ≠ .cmp ra rb := fun ra rb e => hcmp ⟨ra, rb, e⟩
    exact ⟨t.setFl f, exec_setFl h hne hjeq hjne f, rfl, fun hc => absurd hc hcmp⟩

/-- A step that runs no CMP keeps `FL` (R28). -/
theorem step_fl_of_ne_cmp {s t : State} (h : step s = .next t)
    (hne : ∀ ra rb, s.fetchDecode ≠ .instr (.cmp ra rb)) : t.fl = s.fl :=
  step_keeps State.fl (fun _ _ => rfl)
    (fun _ hi he => exec_fl_of_ne_cmp he fun ra rb e => hne ra rb (e ▸ hi)) h

/-- Settles O47: a step runs a CMP, which leaves no UNSET, or it keeps `FL`. -/
theorem flagsPersistUntilTheNextCompare : Obligations.FlagsPersistUntilTheNextCompare := by
  refine ⟨fun s t h => ?_, fun _ => rfl⟩
  have hcmp : ∀ ra rb, s.fetchDecode = .instr (.cmp ra rb) → t.fl ≠ .unset := fun ra rb hi =>
    execCmp_fl_ne_unset (exec_of_step h hi)
  refine ⟨step_fl_of_ne_cmp h, hcmp, fun hs => ?_⟩
  by_cases hc : ∃ ra rb, s.fetchDecode = .instr (.cmp ra rb)
  · obtain ⟨ra, rb, hi⟩ := hc
    exact hcmp ra rb hi
  · rwa [step_fl_of_ne_cmp h fun ra rb hi => hc ⟨ra, rb, hi⟩]

/-! ## Memory, output, registers, `pc`, parameters -/

/-- Settles O48: the one write of PUSH and CALL changes no cell but its own. -/
theorem onlyPushAndCallWriteMemory : Obligations.OnlyPushAndCallWriteMemory := by
  intro i s t a hm h hne
  obtain he | ⟨hi, hsp, v, he⟩ := exec_mem h
  · exact absurd (by rw [he]) hne
  · refine ⟨hi, hsp, ?_⟩
    by_contra ha
    rw [he, memRead_update_byte s.mem hm, if_neg ha] at hne
    exact hne rfl

/-- Only PRN writes `out` (R33). -/
theorem exec_out_of_ne_prn {i : Instr} {s t : State} (h : exec i s = .next t) (hi : ∀ ra, i ≠ .prn ra) :
    t.out = s.out := by
  cases exec_effect i s t h with
  | prn ra => exact absurd rfl (hi ra)
  | jeq | jne => split <;> rfl
  | _ => rfl

/-- Settles O50: a step with a fetched PRN executes it, and any other step keeps `out`, fault entry included. -/
theorem outputGrowsByPrnAlone : Obligations.OutputGrowsByPrnAlone := by
  intro s t h
  constructor
  · intro ra hi
    cases exec_of_step h hi
    rfl
  · intro hne
    exact step_keeps State.out (fun _ _ => rfl)
      (fun _ hi he => exec_out_of_ne_prn he fun ra e => hne ra (e ▸ hi)) h

/-- A register write keeps every register but its own. -/
theorem State.sameRegsBut_setReg (s : State) (r : Reg) (v : Byte) : s.SameRegsBut (s.setReg r v) [r] :=
  fun _ hq => State.getReg_setReg_of_ne s v (List.ne_of_not_mem_cons hq)

/-- A register write and then one of SP keep every register but these two. -/
theorem State.sameRegsBut_setReg_setSp (s : State) (r : Reg) (v w : Byte) :
    s.SameRegsBut ((s.setReg r v).setSp w) [r, Config.spIndex] := fun q hq => by
  obtain ⟨hr, hsp⟩ := not_or.1 (mt List.mem_cons.2 hq)
  rw [State.setSp_getReg_of_ne _ w (List.ne_of_not_mem_cons hsp), State.getReg_setReg_of_ne s v hr]

/-- Settles O51: each case writes the registers that its row of R23 names, and fault entry and the jumps none. -/
theorem onlyTableRegistersAreWritten : Obligations.OnlyTableRegistersAreWritten := by
  intro i s t h
  cases exec_effect i s t h with
  | raise | hlt | prn | cmp | jmp => exact fun _ _ => rfl
  | jeq | jne => exact fun _ _ => by split <;> rfl
  | push | call | ret => exact s.sameRegsBut_setReg Config.spIndex _
  | pop ra => exact s.sameRegsBut_setReg_setSp ra _ _
  | _ => exact s.sameRegsBut_setReg _ _

/-- Settles O52: an instruction that does not fault advances by the bytes its row says or takes a byte as its target. -/
theorem pcAdvanceTable : Obligations.PcAdvanceTable := by
  intro i s t hr hpc h
  refine ⟨exec_pc_of_faulted hr h, fun hok => ?_⟩
  cases exec_effect i s t h with
  | raise => exact absurd rfl hok
  | hlt => rfl
  | call | jmp => exact State.target_toNat _ _
  | ret => exact ⟨_, memRead_byte s.mem s.sp, zext9_toNat _⟩
  | jeq ra =>
    by_cases hf : s.fl = .equal
    · simp only [if_pos hf]
      exact s.target_toNat ra
    · simp only [if_neg hf]
      exact s.advance_pc_toNat 2 (by decide) hpc
  | jne ra =>
    by_cases hf : s.fl ≠ .equal
    · simp only [if_pos hf]
      exact s.target_toNat ra
    · simp only [if_neg hf]
      exact s.advance_pc_toNat 2 (by decide) hpc
  | _ => exact State.advance_pc_toNat _ _ (by decide) hpc

/-- Settles O53: the table is a function of the parameters, which nothing writes. -/
theorem dispatchTableNeverChanges : Obligations.DispatchTableNeverChanges := by
  refine ⟨fun s t h ir opA opB => ?_, fun _ => rfl, fun _ _ _ => State.loadFrom_params⟩
  rw [step_params h]

/-! ## Reset and the terminal states -/

/-- Settles O15: RUNNING and no record agree, and without a record there is nothing for it to say. -/
theorem resetMeetsTheInvariants : Obligations.ResetMeetsTheInvariants := by
  intro p hp
  have hnorec : (State.resetWith p).RecordTrue := fun _ hr => nomatch hr
  exact ⟨⟨Nat.zero_le _, State.resetWith_wf p, hp, by simp [State.resetWith]⟩, hnorec⟩

/-- Settles O18: `step` looks at `run` first. -/
theorem terminalStatesStopByName : Obligations.TerminalStatesStopByName := by
  intro s
  constructor <;> intro hr <;> rw [step, hr]

/-- Every register but SP is 0 after reset (R37, D13). -/
theorem State.hostReset_getReg (s : State) : ∀ r : Reg, r ≠ 7 → s.hostReset.getReg r = 0 := by
  show ∀ r : Reg, r ≠ 7 → (#v[0, 0, 0, 0, 0, 0, 0, Config.stackTop] : Vector Byte 8)[r] = 0
  decide

/-- Every cell is 0 after reset (R37, D13). -/
theorem State.hostReset_memRead (s : State) (a : Int) (h : 0 ≤ a ∧ a ≤ 255) : memRead s.hostReset.mem a = some 0 := by
  have ha : validAddr a := by unfold validAddr Config.memSize; omega
  exact memRead_of_valid _ a ha

/-- Settles O60: reset is a function of the parameters alone. -/
theorem resetValues : Obligations.ResetValues := by
  intro s
  refine ⟨rfl, s.hostReset_getReg, rfl, rfl, rfl, rfl, rfl, s.hostReset_memRead, fun s' hp => ?_⟩
  rw [State.hostReset, State.hostReset, hp]

end Sys2Proof.Machine
end

section
/-! PROOFS. The statements about memory (20_memory.md): first the two accessors, the fetch through three reads and an
instruction in another memory, said once, then the obligations. -/

namespace Sys2Proof.Machine

/-! ## The accessors -/

/-- The addresses inside memory are 0 to 255 (R51). -/
theorem validAddr_iff (a : Int) : validAddr a ↔ 0 ≤ a ∧ a ≤ 255 := by
  unfold validAddr Config.memSize; omega

/-- A data read answers the byte that the memory read answers (R51). -/
theorem State.loadByte_of_some {s : State} {a : Int} {v : Byte} (h : memRead s.mem a = some v) :
    s.loadByte a = .ok v := by
  rw [State.loadByte, h]

/-- A data read raises AddressFault where the memory read fails (R51). -/
theorem State.loadByte_of_none {s : State} {a : Int} (h : memRead s.mem a = none) :
    s.loadByte a = .error ⟨.addressFault, a⟩ := by
  rw [State.loadByte, h]

/-- A data read looks only at memory, and there only at its own cell. -/
theorem State.loadByte_congr {s t : State} {a : Int} (h : memRead t.mem a = memRead s.mem a) :
    t.loadByte a = s.loadByte a := by
  rw [State.loadByte, State.loadByte, h]

/-- A data write inside memory succeeds (R51). -/
theorem State.storeByte_of_valid (s : State) {a : Int} (h : validAddr a) (v : Byte) :
    s.storeByte a v = .ok { s with mem := Memory.update s.mem a.toNat v } := by
  rw [State.storeByte, memWrite, if_pos h]

/-- A data write outside memory raises AddressFault (R51). -/
theorem State.storeByte_of_invalid (s : State) {a : Int} (h : ¬ validAddr a) (v : Byte) :
    s.storeByte a v = .error ⟨.addressFault, a⟩ := by
  rw [State.storeByte, memWrite, if_neg h]

/-- A data write that succeeds is a memory write, and changes nothing else (R51). -/
theorem State.storeByte_ok {s t : State} {a : Int} {v : Byte} (h : s.storeByte a v = .ok t) :
    ∃ m, memWrite s.mem a v = some m ∧ t = { s with mem := m } := by
  unfold State.storeByte at h
  split at h
  next m hm => exact ⟨m, hm, (Except.ok.inj h).symm⟩
  next => cases h

/-- Settles O55: an address is 0 to 255, where both accessors answer, or it is not, where both fail. -/
theorem accessorsFailOutsideMemory : Obligations.AccessorsFailOutsideMemory := by
  intro s addr v
  constructor
  · intro hin
    have ha : validAddr addr := (validAddr_iff addr).2 hin
    exact ⟨⟨_, State.loadByte_of_some (memRead_of_valid s.mem addr ha)⟩, _, s.storeByte_of_valid ha v⟩
  · intro hout
    have ha : ¬ validAddr addr := by rw [validAddr_iff]; omega
    exact ⟨State.loadByte_of_none (memRead_of_invalid s.mem addr ha), s.storeByte_of_invalid ha v⟩

/-- Settles O56: the write is one of memory alone, and reads after it are those of the law of read after write. -/
theorem readReturnsTheLastWrite : Obligations.ReadReturnsTheLastWrite := by
  intro s t addr v hm h
  obtain ⟨m, hw, rfl⟩ := State.storeByte_ok h
  have hread (b : Int) : memRead m b = if b = addr then some v else memRead s.mem b :=
    memRead_memWrite s.mem m hm addr b v hw
  refine ⟨memWrite_wf s.mem m hm addr v hw, State.loadByte_of_some ?_, fun a ha => State.loadByte_congr ?_, rfl⟩
  · exact (hread addr).trans (if_pos rfl)
  · exact (hread a).trans (if_neg ha)

/-! ## Fetch from memory that was just written -/

/-- Where the three fetch reads answer bytes, these are dispatched and decoded (R111, R112). -/
theorem State.fetchDecode_of_reads {s : State} {ir opA opB : Byte} (hir : memRead s.mem s.pc.toNat = some ir)
    (hA : memRead s.mem (s.pc.toNat + 1) = some opA) (hB : memRead s.mem (s.pc.toNat + 2) = some opB) :
    s.fetchDecode = decodeStage s.params ir opA opB := by
  simp only [State.fetchDecode, hir, hA, hB]

/-- After a PUSH the cell at the new SP holds the register, read after the decrement (R170, R57). -/
theorem execPush_memRead {ra : Reg} {s t : State} (hm : Memory.wf s.mem) (hsp : s.sp ≠ 0)
    (h : exec (.push ra) s = .next t) : memRead t.mem (s.sp - 1).toNat = some (t.getReg ra) := by
  cases (execPush_pos ra s hsp).symm.trans h
  exact (memRead_update_byte s.mem hm (s.sp - 1) _ _).trans (if_pos rfl)

/-- Settles O41: the first fetch read is at the cell that PUSH wrote. -/
theorem pushedByteIsTheNextOpcode : Obligations.PushedByteIsTheNextOpcode := by
  intro ra s t opA opB hm hsp h hpc hA hB
  have hir : memRead t.mem t.pc.toNat = some (t.getReg ra) := hpc ▸ execPush_memRead hm hsp h
  exact State.fetchDecode_of_reads hir hA hB

/-! ## Instructions in another memory -/

/-- Registers are apart from memory (R20). -/
@[simp] theorem State.withMem_getReg (s : State) (m : Memory) (r : Reg) :
    State.getReg { s with mem := m } r = s.getReg r := rfl

/-- The end of an ALU instruction does not look at memory and passes it on, whether the ALU answers or fails. -/
theorem State.complete_aluInto_withMem {s t : State} {o : Option Byte} {f : AluFn} {ra : Reg} {b : Byte} {n : Pc}
    (h : s.complete o (s.aluInto f ra b n) = .next t) (m : Memory) :
    State.complete { s with mem := m } o (State.aluInto { s with mem := m } f ra b n) =
      .next { t with mem := m } := by
  rw [State.aluInto] at h ⊢
  rw [State.withMem_getReg]
  split at h <;> cases h <;> rfl

/-- Memories that read the same at SP have the same byte there. -/
theorem Memory.lookup_eq_of_memRead_eq {m m' : Memory} {k : Byte} (h : memRead m k.toNat = memRead m' k.toNat) :
    Memory.lookup m k.toNat = Memory.lookup m' k.toNat := by
  rw [memRead_byte, memRead_byte] at h
  exact Option.some.inj h

/-- POP does the same in a memory with the same byte at SP (R53, R171). -/
theorem execPop_withMem {ra : Reg} {s t : State} {m : Memory}
    (hm : memRead m s.sp.toNat = memRead s.mem s.sp.toNat) (h : execPop ra s = .next t) :
    execPop ra { s with mem := m } = .next { t with mem := m } := by
  by_cases hs : popBound ≤ s.sp
  · cases (execPop_empty ra s hs).symm.trans h
    exact execPop_empty ra { s with mem := m } hs
  · rw [execPop_full ra s hs, ← Memory.lookup_eq_of_memRead_eq hm] at h
    cases h
    exact execPop_full ra { s with mem := m } hs

/-- RET does the same in a memory with the same byte at SP (R53, R181). -/
theorem execRet_withMem {s t : State} {m : Memory}
    (hm : memRead m s.sp.toNat = memRead s.mem s.sp.toNat) (h : execRet s = .next t) :
    execRet { s with mem := m } = .next { t with mem := m } := by
  by_cases hs : popBound ≤ s.sp
  · cases (execRet_empty s hs).symm.trans h
    exact execRet_empty { s with mem := m } hs
  · rw [execRet_full s hs, ← Memory.lookup_eq_of_memRead_eq hm] at h
    cases h
    exact execRet_full { s with mem := m } hs

/-- An instruction other than PUSH and CALL does the same in any memory and passes it on, POP and RET where the byte at
SP is the same (R34, R53). -/
theorem exec_withMem {i : Instr} {s t : State} {m : Memory} (hpush : ∀ ra, i ≠ .push ra) (hcall : ∀ ra, i ≠ .call ra)
    (hm : (i = .ret ∨ ∃ ra, i = .pop ra) → memRead m s.sp.toNat = memRead s.mem s.sp.toNat)
    (h : exec i s = .next t) : exec i { s with mem := m } = .next { t with mem := m } := by
  cases i with
  | push ra => exact absurd rfl (hpush ra)
  | call ra => exact absurd rfl (hcall ra)
  | pop ra => exact execPop_withMem (hm (.inr ⟨ra, rfl⟩)) h
  | ret => exact execRet_withMem (hm (.inl rfl)) h
  | mod ra rb => exact State.complete_aluInto_withMem h m
  | jeq ra | jne ra =>
    cases h
    simp only [exec, execJeq, execJne]
    split <;> rfl
  | _ => cases h; rfl

/-- PUSH and CALL do the same in any memory: they overflow at SP = 0 and pass the memory on, or they store one and the
same byte at SP - 1 (R53, R170, R180). -/
theorem exec_pushes_withMem {i : Instr} {s t : State} (hi : ∃ ra, i = .push ra ∨ i = .call ra)
    (h : exec i s = .next t) (m : Memory) :
    (s.sp = 0 ∧ exec i { s with mem := m } = .next { t with mem := m }) ∨
      (s.sp ≠ 0 ∧ ∃ v, t.mem = Memory.update s.mem (s.sp - 1).toNat v ∧
        exec i { s with mem := m } = .next { t with mem := Memory.update m (s.sp - 1).toNat v }) := by
  obtain ⟨ra, rfl | rfl⟩ := hi
  · by_cases hs : s.sp = 0
    · cases (execPush_zero ra s hs).symm.trans h
      exact .inl ⟨hs, execPush_zero ra { s with mem := m } hs⟩
    · cases (execPush_pos ra s hs).symm.trans h
      exact .inr ⟨hs, _, rfl, execPush_pos ra { s with mem := m } hs⟩
  · by_cases hs : s.sp = 0
    · cases (execCall_zero ra s hs).symm.trans h
      exact .inl ⟨hs, execCall_zero ra { s with mem := m } hs⟩
    · cases (execCall_pos ra s hs).symm.trans h
      exact .inr ⟨hs, _, rfl, execCall_pos ra { s with mem := m } hs⟩

/-- Settles O49: of the two memories PUSH and CALL leave, both read as the one stored byte at SP - 1. -/
theorem onlyPopAndRetReadData : Obligations.OnlyPopAndRetReadData := by
  refine ⟨fun i s t m => exec_withMem, fun i s t m hi hs hm h => ?_⟩
  obtain ⟨hz, he⟩ | ⟨hnz, v, ht, he⟩ := exec_pushes_withMem hi h m
  · exact ⟨m, he, fun _ => rfl, fun hnz => absurd hz hnz⟩
  · refine ⟨_, he, fun hz => absurd hz hnz, fun _ => ⟨?_, fun a ha => ?_⟩⟩
    · rw [ht, memRead_update_byte m hm, memRead_update_byte s.mem hs, if_pos rfl, if_pos rfl]
    · rw [memRead_update_byte m hm, if_neg ha]

end Sys2Proof.Machine
end

section
/-! PROOFS. The statements about the encoding (30_encoding.md): first the keys of the dispatch table, the row of each
instruction and what a row builds, said once, then the obligations. -/

namespace Sys2Proof

/-! ## The keys of the dispatch table -/

/-- The keys with a fixed number: the thirteen, and the eight optional ones where they are present (R86, R89). -/
def fixedKeys (aluExt : Bool) : List Byte := (baseRows ++ if aluExt then aluExtRows else []).map Prod.fst

/-- The fixed keys by their numbers (R86, R89). -/
theorem mem_fixedKeys (e : Bool) (ir : Byte) : ir ∈ fixedKeys e ↔
    ir ∈ ([0x01, 0x82, 0x47, 0xA0, 0xA2, 0x45, 0x46, 0x50, 0x11, 0xA7, 0x55, 0x56, 0x54] : List Byte) ∨
    (e = true ∧ ir ∈ ([0xA1, 0xA4, 0x69, 0xA8, 0xAA, 0xAB, 0xAC, 0xAD] : List Byte)) := by
  have base : baseRows.map Prod.fst =
    [0x01, 0x82, 0x47, 0xA0, 0xA2, 0x45, 0x46, 0x50, 0x11, 0xA7, 0x55, 0x56, 0x54] := rfl
  have ext : aluExtRows.map Prod.fst = [0xA1, 0xA4, 0x69, 0xA8, 0xAA, 0xAB, 0xAC, 0xAD] := rfl
  rw [fixedKeys, List.map_append, List.mem_append, base]
  cases e
  · simp
  · rw [if_pos rfl, ext]; simp

/-- No two of the fixed opcode numbers are equal. -/
theorem fixedKeys_nodup (e : Bool) : (fixedKeys e).Nodup := by
  cases e <;> decide

theorem dispatchKeys_eq (p : Params) : dispatchKeys p = fixedKeys p.aluExt ++ p.opcAddi.toList := by
  rw [dispatchKeys, dispatchTable, List.map_append, fixedKeys]
  cases p.opcAddi <;> rfl

/-- What R87 asks of `OPC_ADDI`. -/
theorem Params.wf_iff (p : Params) : p.wf = true ↔ ∀ b, p.opcAddi = some b → b ∉ fixedKeys p.aluExt := by
  unfold Params.wf fixedKeys
  cases p.opcAddi <;> simp

/-- The fixed keys are distinct by their numbers, and `OPC_ADDI` by R87 (R88). -/
theorem dispatchKeys_nodup {p : Params} (hp : p.wf = true) : (dispatchKeys p).Nodup := by
  rw [dispatchKeys_eq]
  cases hb : p.opcAddi with
  | none => simpa using fixedKeys_nodup p.aluExt
  | some b =>
    rw [Option.toList_some, ← List.concat_eq_append]
    exact (fixedKeys_nodup p.aluExt).concat (p.wf_iff.1 hp b hb)

/-- In a table with distinct keys every row is found under its key. -/
theorem findRow_of_mem {l : List (Byte × Row)} (hl : (l.map Prod.fst).Nodup) {k : Byte} {r : Row} (h : (k, r) ∈ l) :
    findRow l k = some r := by
  induction l with
  | nil => cases h
  | cons c rest ih =>
    obtain ⟨hc, hrest⟩ := List.nodup_cons.1 hl
    obtain rfl | hr := List.mem_cons.1 h
    · exact if_pos rfl
    · have hne : k ≠ c.1 := fun e => hc (e ▸ List.mem_map_of_mem hr)
      exact (if_neg hne).trans (ih hrest hr)

/-- A selected row fails only on a register index, so the decoder calls an opcode byte illegal exactly where dispatch
misses (R90, R112). -/
theorem decode_illegalOpcode (p : Params) (ir opA opB : Byte) :
    decode p ir opA opB = .error (.illegalOpcode ir) ↔ ir ∉ dispatchKeys p := by
  rw [← dispatch_none, decode]
  cases dispatch p ir with
  | none => simp
  | some row =>
    refine iff_of_false (fun h => ?_) (Option.some_ne_none row)
    obtain ⟨-, e⟩ | ⟨-, -, e⟩ := build_error row opA opB _ h <;> cases e

/-! ## The row of an instruction -/

/-- The row of the opcode table that an instruction belongs to (R80, R86, R87, R89). -/
def Instr.row : Instr → Row
  | .hlt => .f0 .hlt
  | .ldi _ _ => .f2imm .ldi
  | .prn _ => .f1 .prn
  | .add _ _ => .f2 .add
  | .mul _ _ => .f2 .mul
  | .push _ => .f1 .push
  | .pop _ => .f1 .pop
  | .call _ => .f1 .call
  | .ret => .f0 .ret
  | .cmp _ _ => .f2 .cmp
  | .jeq _ => .f1 .jeq
  | .jne _ => .f1 .jne
  | .jmp _ => .f1 .jmp
  | .addi _ _ => .f2 .addi
  | .sub _ _ => .f2 .sub
  | .mod _ _ => .f2 .mod
  | .not _ => .f1 .not
  | .and _ _ => .f2 .and
  | .or _ _ => .f2 .or
  | .xor _ _ => .f2 .xor
  | .shl _ _ => .f2 .shl
  | .shr _ _ => .f2 .shr

/-- An instruction that has an opcode stands in the dispatch table with its row. -/
theorem Instr.row_mem_dispatchTable {p : Params} {i : Instr} {b : Byte} (h : i.opcode p = some b) :
    (b, i.row) ∈ dispatchTable p := by
  rw [mem_dispatchTable]
  cases i with
  | addi => exact .inr (.inr ⟨b, h, rfl⟩)
  | sub | mod | not | and | or | xor | shl | shr =>
    obtain ⟨he, hb⟩ := Option.ite_none_right_eq_some.1 h
    cases hb
    exact .inr (.inl ⟨he, by simp [aluExtRows, row]⟩)
  | _ =>
    cases h
    exact .inl (by simp [baseRows, row])

/-! ## What a row builds -/

/-- The instruction is the row's constructor applied to operands. -/
def Row.Makes : Row → Instr → Prop
  | .f0 j, i => i = j
  | .f1 mk, i => ∃ ra, i = mk ra
  | .f2 mk, i => ∃ ra rb, i = mk ra rb
  | .f2imm mk, i => ∃ ra imm, i = mk ra imm

theorem Instr.row_makes (i : Instr) : i.row.Makes i := by
  cases i with
  | hlt | ret => exact rfl
  | prn ra | push ra | pop ra | call ra | jeq ra | jne ra | jmp ra | not ra => exact ⟨ra, rfl⟩
  | _ => exact ⟨_, _, rfl⟩

/-- What a row makes has the opcode byte that the row encodes. -/
theorem Row.Encodes.opcode {p : Params} {ir : Byte} {row : Row} {i : Instr} (h : row.Encodes p ir)
    (hi : row.Makes i) : i.opcode p = some ir := by
  cases row with
  | f0 j => cases hi; exact h.1
  | f1 mk => obtain ⟨ra, rfl⟩ := hi; exact (h ra).1
  | f2 mk => obtain ⟨ra, rb, rfl⟩ := hi; exact (h ra rb).1
  | f2imm mk => obtain ⟨ra, imm, rfl⟩ := hi; exact (h ra imm).1

/-- The row's instructions are laid out in memory as the row's form reads them: a register operand as its number, an
immediate as itself (R80, R84, R85). -/
def Row.LaysOut : Row → Prop
  | .f0 i => i.operandBytes = []
  | .f1 mk => ∀ ra, (mk ra).operandBytes = [regByte ra]
  | .f2 mk => ∀ ra rb, (mk ra rb).operandBytes = [regByte ra, regByte rb]
  | .f2imm mk => ∀ ra imm, (mk ra imm).operandBytes = [regByte ra, imm]

/-- Every row of the dispatch table lays its instructions out. -/
theorem dispatchTable_laysOut {p : Params} {c : Byte × Row} (h : c ∈ dispatchTable p) : c.2.LaysOut := by
  have fixed : ∀ c ∈ baseRows ++ aluExtRows, c.2.LaysOut := by
    simp [baseRows, aluExtRows, Row.LaysOut, Instr.operandBytes]
  obtain hm | ⟨-, hm⟩ | ⟨b, -, rfl⟩ := (mem_dispatchTable p c).1 h
  · exact fixed c (List.mem_append_left _ hm)
  · exact fixed c (List.mem_append_right _ hm)
  · exact fun _ _ => rfl

/-- A fetched byte passes the operand check as `r` exactly if it is the byte that names `r`. -/
theorem regOperand_eq_ok (op : Byte) (r : Reg) : regOperand op = .ok r ↔ regByte r = op :=
  ⟨regByte_of_regOperand op r, fun h => h ▸ regOperand_regByte r⟩

/-- From two operand bytes a row builds exactly that one of its instructions whose own operand bytes they begin with. -/
theorem Row.build_eq_ok {row : Row} (hrow : row.LaysOut) (opA opB : Byte) (i : Instr) :
    row.build opA opB = .ok i ↔ row.Makes i ∧ i.operandBytes <+: [opA, opB] := by
  cases row with
  | f0 j =>
    constructor
    · intro h; cases h; exact ⟨rfl, hrow ▸ List.nil_prefix⟩
    · rintro ⟨rfl, -⟩; rfl
  | f1 mk =>
    constructor
    · intro h
      obtain ⟨ra, hA, rfl⟩ := build_f1_ok mk opA opB i h
      exact ⟨⟨ra, rfl⟩, by simp [hrow ra, (regOperand_eq_ok _ _).1 hA]⟩
    · rintro ⟨⟨ra, rfl⟩, h⟩
      obtain rfl : regByte ra = opA := by simpa [hrow ra] using h
      simp [Row.build]
  | f2 mk =>
    constructor
    · intro h
      obtain ⟨ra, rb, hA, hB, rfl⟩ := build_f2_ok mk opA opB i h
      exact ⟨⟨ra, rb, rfl⟩, by simp [hrow ra rb, (regOperand_eq_ok _ _).1 hA, (regOperand_eq_ok _ _).1 hB]⟩
    · rintro ⟨⟨ra, rb, rfl⟩, h⟩
      obtain ⟨rfl, rfl⟩ : regByte ra = opA ∧ regByte rb = opB := by simpa [hrow ra rb] using h
      simp [Row.build]
  | f2imm mk =>
    constructor
    · intro h
      obtain ⟨ra, hA, rfl⟩ := build_f2imm_ok mk opA opB i h
      exact ⟨⟨ra, opB, rfl⟩, by simp [hrow ra opB, (regOperand_eq_ok _ _).1 hA]⟩
    · rintro ⟨⟨ra, imm, rfl⟩, h⟩
      obtain ⟨rfl, rfl⟩ : regByte ra = opA ∧ imm = opB := by simpa [hrow ra imm] using h
      simp [Row.build]

/-! ## Decoding and encoding -/

/-- What the decoder accepts has the fetched opcode byte, and its operand bytes begin the fetched ones. -/
theorem opcode_and_operandBytes_of_decode {p : Params} {ir opA opB : Byte} {i : Instr}
    (h : decode p ir opA opB = .ok i) : i.opcode p = some ir ∧ i.operandBytes <+: [opA, opB] := by
  obtain ⟨row, -, hrow, hb⟩ := decode_ok p ir opA opB i h
  obtain ⟨hi, hops⟩ := (Row.build_eq_ok (dispatchTable_laysOut hrow) opA opB i).1 hb
  exact ⟨(dispatchTable_encodes p ir row hrow).opcode hi, hops⟩

/-- In a legal core an instruction decodes from its opcode byte and any bytes that its operand bytes begin: its row is
the one that dispatch finds, since the keys are distinct. -/
theorem decode_of_opcode_of_operandBytes {p : Params} (hp : p.wf = true) {ir opA opB : Byte} {i : Instr}
    (hir : i.opcode p = some ir) (hops : i.operandBytes <+: [opA, opB]) : decode p ir opA opB = .ok i := by
  have hrow := Instr.row_mem_dispatchTable hir
  have hd : dispatch p ir = some i.row := findRow_of_mem (dispatchKeys_nodup hp) hrow
  rw [decode, hd]
  exact (Row.build_eq_ok (dispatchTable_laysOut hrow) opA opB i).2 ⟨i.row_makes, hops⟩

theorem encode_eq_some {p : Params} {i : Instr} {bs : List Byte} :
    encode p i = some bs ↔ ∃ b, i.opcode p = some b ∧ bs = b :: i.operandBytes := by
  unfold encode
  cases i.opcode p <;> simp [eq_comm]

/-- Every instruction is encoded in the shape of R80 and R82. -/
theorem encodedShape (i : Instr) : Laws.EncodedShape.Statement i := by
  cases i with
  | hlt => exact Laws.EncodedShape.hlt
  | ldi => exact Laws.EncodedShape.ldi _ _
  | prn => exact Laws.EncodedShape.prn _
  | add => exact Laws.EncodedShape.add _ _
  | mul => exact Laws.EncodedShape.mul _ _
  | push => exact Laws.EncodedShape.push _
  | pop => exact Laws.EncodedShape.pop _
  | call => exact Laws.EncodedShape.call _
  | ret => exact Laws.EncodedShape.ret
  | cmp => exact Laws.EncodedShape.cmp _ _
  | jeq => exact Laws.EncodedShape.jeq _
  | jne => exact Laws.EncodedShape.jne _
  | jmp => exact Laws.EncodedShape.jmp _
  | addi => exact Laws.EncodedShape.addi _ _
  | sub => exact Laws.EncodedShape.sub _ _
  | mod => exact Laws.EncodedShape.mod _ _
  | not => exact Laws.EncodedShape.not _
  | and => exact Laws.EncodedShape.and _ _
  | or => exact Laws.EncodedShape.or _ _
  | xor => exact Laws.EncodedShape.xor _ _
  | shl => exact Laws.EncodedShape.shl _ _
  | shr => exact Laws.EncodedShape.shr _ _

theorem Instr.operandBytes_length (i : Instr) : i.operandBytes.length + 1 = i.width := (encodedShape i).1

theorem Instr.operandBytes_length_le (i : Instr) : i.operandBytes.length ≤ 2 := by
  have hw : i.width ≤ 3 := by cases i <;> simp [width]
  have := i.operandBytes_length
  omega

/-- An instruction has an encoding exactly where its row exists (R88). -/
theorem encode_isSome (p : Params) (i : Instr) : (encode p i).isSome = i.wellFormed p := by
  obtain ⟨-, -, hshape⟩ := encodedShape i
  cases hw : i.wellFormed p with
  | false => rw [(hshape p).2 hw]; rfl
  | true =>
    obtain ⟨b, -, he⟩ := (hshape p).1 hw
    rw [he]; rfl

/-- Two bytes are fetched as operands from any sequence that has them (R81). -/
theorem exists_two_heads (l : List Byte) (h : 2 ≤ l.length) : ∃ opA opB tl, l = opA :: opB :: tl := by
  match l, h with
  | opA :: opB :: tl, _ => exact ⟨opA, opB, tl, rfl⟩

/-- Settles O2: the two bytes fetched after the opcode byte begin with the instruction's operand bytes, of which there
are at most two. -/
theorem decodeOfEncodeIsTheInstruction : Obligations.DecodeOfEncodeIsTheInstruction := by
  refine fun p i hp => ⟨encode_isSome p i, fun bs rest he hrest => ?_⟩
  obtain ⟨b, hb, rfl⟩ := encode_eq_some.1 he
  obtain ⟨opA, opB, tl, hl⟩ := exists_two_heads (i.operandBytes ++ rest) (by rw [List.length_append]; omega)
  have hops : i.operandBytes <+: [opA, opB] :=
    List.prefix_of_prefix_length_le (l₃ := opA :: opB :: tl) ⟨rest, hl⟩ ⟨tl, rfl⟩ i.operandBytes_length_le
  rw [List.cons_append, hl, decodeBytes, decode_of_opcode_of_operandBytes hp hb hops]

/-- Settles O3: the operand bytes of what decodes are the first of the two fetched ones, and the width counts them. -/
theorem encodeOfDecodeIsTheFetchedBytes : Obligations.EncodeOfDecodeIsTheFetchedBytes := by
  intro p ir opA opB i h
  obtain ⟨hir, hops⟩ := opcode_and_operandBytes_of_decode h
  have he : encode p i = some (ir :: i.operandBytes) := encode_eq_some.2 ⟨ir, hir, rfl⟩
  refine ⟨by rw [← encode_isSome, he]; rfl, ?_⟩
  rw [he, ← i.operandBytes_length, List.take_succ_cons, ← List.prefix_iff_eq_take.1 hops]

/-- Settles O4: the keys are the fixed ones and then `OPC_ADDI`. -/
theorem dispatchKeysAreTheTableBytes : Obligations.DispatchKeysAreTheTableBytes := by
  refine ⟨fun p ir => ?_, fun p => dispatchKeys_nodup, decode_illegalOpcode⟩
  rw [dispatchKeys_eq, List.mem_append, mem_fixedKeys, or_assoc, Option.mem_toList]

/-- The two most significant bits of a fixed opcode byte are one less than the width (R82, R83). -/
theorem width_of_opcode {p : Params} {i : Instr} {b : Byte} (h : i.opcode p = some b)
    (hi : ∀ ra rb, i ≠ .addi ra rb) : b.toNat / 64 + 1 = i.width := by
  cases i with
  | addi ra rb => exact absurd rfl (hi ra rb)
  | sub | mod | not | and | or | xor | shl | shr =>
    obtain ⟨-, hb⟩ := Option.ite_none_right_eq_some.1 h
    cases hb; rfl
  | _ => cases h; rfl

/-- Settles O6: the two most significant bits and the operand bytes are both one less than the width. -/
theorem encodedWidthAndOperandCount : Obligations.EncodedWidthAndOperandCount := by
  intro p i bs he
  obtain ⟨b, hb, rfl⟩ := encode_eq_some.1 he
  refine ⟨i.operandBytes_length, fun hi => ⟨b, i.operandBytes, rfl, ?_⟩⟩
  have hw : b.toNat / 64 + 1 = i.width := width_of_opcode hb hi
  have := i.operandBytes_length
  omega

/-- Settles O1, by running the decoder on each word. -/
theorem specWordsDecode : Obligations.SpecWordsDecode := by
  unfold Obligations.SpecWordsDecode
  and_intros <;> rfl

/-- In a legal core the bytes that dispatch misses are as many as the keys leave of the 256: the bytes it finds are the
keys, each once (R90). -/
theorem length_illegal_add_length_keys {p : Params} (hp : p.wf = true) :
    ((List.range 256).filter fun n => (dispatch p (BitVec.ofNat 8 n)).isNone).length +
      (dispatchKeys p).length = 256 := by
  have hfound : ((List.range 256).filter fun n => !(dispatch p (BitVec.ofNat 8 n)).isNone).Perm
      ((dispatchKeys p).map BitVec.toNat) := by
    refine (List.perm_ext_iff_of_nodup (List.nodup_range.filter _)
      ((dispatchKeys_nodup hp).map fun _ _ => BitVec.eq_of_toNat_eq)).2 fun n => ?_
    have hkey : (!(dispatch p (BitVec.ofNat 8 n)).isNone) = true ↔ BitVec.ofNat 8 n ∈ dispatchKeys p := by
      rw [Bool.not_eq_true', ← Bool.not_eq_true, Option.isNone_iff_eq_none, dispatch_none, not_not]
    rw [List.mem_filter, List.mem_range, hkey, List.mem_map]
    constructor
    · rintro ⟨hn, hk⟩
      exact ⟨_, hk, by simpa using hn⟩
    · rintro ⟨b, hb, rfl⟩
      exact ⟨b.isLt, by simpa using hb⟩
  rw [← List.length_map (f := BitVec.toNat), ← hfound.length_eq, ← List.length_eq_length_filter_add,
    List.length_range]

/-- Settles O5: the default core has thirteen keys, and 0x00 is not one of them. -/
theorem defaultCoreHas243IllegalBytes : Obligations.DefaultCoreHas243IllegalBytes := by
  have hkeys : (dispatchKeys Params.defaults).length = 13 := rfl
  have hcount := length_illegal_add_length_keys (p := Params.defaults) rfl
  exact ⟨by omega, rfl⟩

end Sys2Proof
end

section
/-! PROOFS. The statements about the cycle and dispatch (40_cycle_and_dispatch.md): first the operand check of a
selected row, a running step in terms of what its first three stages give, the fetch at the end of memory and the end of
an instruction, said once, then the obligations. -/

namespace Sys2Proof

/-! ## The operand check of a selected row -/

/-- How many operand bytes, A first, a row of this form checks as register indices (R84, R113). -/
def Row.registerOperands : Row → Nat
  | .f0 _ => 0
  | .f1 _ | .f2imm _ => 1
  | .f2 _ => 2

/-- What a row makes uses as many bytes as register indices as the row checks. -/
theorem Row.Encodes.registerOperands {p : Params} {ir : Byte} {row : Row} {i : Instr} (h : row.Encodes p ir)
    (hi : row.Makes i) : i.registerOperands = row.registerOperands := by
  cases row with
  | f0 j => cases hi; exact h.2
  | f1 mk => obtain ⟨ra, rfl⟩ := hi; exact (h ra).2
  | f2 mk => obtain ⟨ra, rb, rfl⟩ := hi; exact (h ra rb).2
  | f2imm mk => obtain ⟨ra, imm, rfl⟩ := hi; exact (h ra imm).2

/-- Every row makes an instruction. -/
theorem Row.exists_makes (row : Row) : ∃ i, row.Makes i := by
  cases row with
  | f0 j => exact ⟨j, rfl⟩
  | f1 mk => exact ⟨mk 0, 0, rfl⟩
  | f2 mk | f2imm mk => exact ⟨mk 0 0, 0, 0, rfl⟩

/-- A byte of at most 7 passes the operand check (R24). -/
theorem exists_regOperand_eq_ok {op : Byte} (h : op.toNat ≤ 7) : ∃ r, regOperand op = .ok r :=
  ⟨⟨op.toNat, Nat.lt_succ_of_le h⟩, (regOperand_ok op _).2 rfl⟩

/-- A byte above 7 fails the operand check (R24). -/
theorem regOperand_of_gt {op : Byte} (h : 7 < op.toNat) : regOperand op = .error (.registerIndex op) :=
  (regOperand_error op _).2 ⟨h, rfl⟩

/-- A row that checks operand A fails on one above 7, whatever operand B is (R113). -/
theorem Row.build_of_opA_gt {row : Row} {opA opB : Byte} (hn : 1 ≤ row.registerOperands) (hA : 7 < opA.toNat) :
    row.build opA opB = .error (.registerIndex opA) := by
  cases row with
  | f0 => exact absurd hn (Nat.not_succ_le_zero 0)
  | _ => simp only [build, regOperand_of_gt hA]

/-- A row that checks both operands fails on an operand B above 7 if operand A passed (R113). -/
theorem Row.build_of_opB_gt {row : Row} {opA opB : Byte} (hn : row.registerOperands = 2) (hA : opA.toNat ≤ 7)
    (hB : 7 < opB.toNat) : row.build opA opB = .error (.registerIndex opB) := by
  cases row with
  | f2 mk =>
    obtain ⟨ra, hra⟩ := exists_regOperand_eq_ok hA
    simp only [build, hra, regOperand_of_gt hB]
  | f0 | f1 | f2imm => cases hn

/-- A row builds an instruction where each operand that it checks is at most 7; it looks at no other operand (R113). -/
theorem Row.exists_build_eq_ok {row : Row} {opA opB : Byte} (hA : 1 ≤ row.registerOperands → opA.toNat ≤ 7)
    (hB : row.registerOperands = 2 → opB.toNat ≤ 7) : ∃ i, row.build opA opB = .ok i := by
  cases row with
  | f0 j => exact ⟨j, rfl⟩
  | f1 mk | f2imm mk =>
    obtain ⟨ra, hra⟩ := exists_regOperand_eq_ok (hA le_rfl)
    simp [build, hra]
  | f2 mk =>
    obtain ⟨ra, hra⟩ := exists_regOperand_eq_ok (hA one_le_two)
    obtain ⟨rb, hrb⟩ := exists_regOperand_eq_ok (hB rfl)
    simp [build, hra, hrb]

/-- Dispatch hits on a key (R112). -/
theorem exists_dispatch_eq_some {p : Params} {ir : Byte} (h : ir ∈ dispatchKeys p) :
    ∃ row, dispatch p ir = some row :=
  Option.ne_none_iff_exists'.1 fun hn => (dispatch_none p ir).1 hn h

/-- After a hit the row alone decides what the operand bytes decode to (R112, R113). -/
theorem decode_of_dispatch {p : Params} {ir : Byte} {row : Row} (h : dispatch p ir = some row) (opA opB : Byte) :
    decode p ir opA opB = row.build opA opB := by
  rw [decode, h]

end Sys2Proof

namespace Sys2Proof.Machine

/-! ## A running step in terms of its first three stages -/

/-- A running step executes the instruction it fetched (R110, R114). -/
theorem step_of_instr {s : State} {i : Instr} (hr : s.run = .running) (hf : s.fetchDecode = .instr i) :
    step s = exec i s := by
  simp only [step, hr, hf]

/-- A running step takes a fault of its first three stages (R110, R212). -/
theorem step_of_raised {s : State} {o : Option Byte} {c : FaultCause} (hr : s.run = .running)
    (hf : s.fetchDecode = .raised o c) : step s = .next (s.raise o c) := by
  simp only [step, hr, hf]

section Reads

variable {s : State} {ir opA opB : Byte} (hr : s.run = .running) (hir : memRead s.mem s.pc.toNat = some ir)
  (hA : memRead s.mem (s.pc.toNat + 1) = some opA) (hB : memRead s.mem (s.pc.toNat + 2) = some opB)
include hr hir hA hB

/-- A running step executes what its three fetched bytes decode to (R110, R114). -/
theorem step_of_decode_ok {i : Instr} (hd : decode s.params ir opA opB = .ok i) : step s = exec i s :=
  step_of_instr hr ((State.fetchDecode_of_reads hir hA hB).trans ((decodeStage_instr _ ir opA opB i).2 hd))

/-- Where its three fetched bytes do not decode, a running step takes the decoder's fault (R112, R113). -/
theorem step_of_decode_error {e : DecodeError} (hd : decode s.params ir opA opB = .error e) :
    step s = .next (s.raise (some ir) (decodeErrorCause e)) := by
  have hf : s.fetchDecode = .raised (some ir) (decodeErrorCause e) := by
    rw [State.fetchDecode_of_reads hir hA hB, decodeStage, hd]
  exact step_of_raised hr hf

end Reads

/-- Settles O7: the decoded instruction is the one that the first three stages give. -/
theorem stepRunsTheDecodedInstruction : Obligations.StepRunsTheDecodedInstruction := by
  intro s ir opA opB i hr hir hA hB hd
  exact step_of_decode_ok hr hir hA hB hd

/-- Settles O8: the decoder refuses a byte that is no key before it looks at the operand bytes. -/
theorem nonKeyByteRaisesIllegalOpcode : Obligations.NonKeyByteRaisesIllegalOpcode := by
  intro s ir opA opB hr hir hA hB hkey
  exact step_of_decode_error hr hir hA hB ((decode_illegalOpcode s.params ir opA opB).2 hkey)

/-- Settles O9: the instruction it asks for is any one that the selected row makes, since all of them have the row's
opcode and its count of register operands. -/
theorem operandCheckAfterDispatch : Obligations.OperandCheckAfterDispatch := by
  intro s ir opA opB hr hir hA hB hkey
  obtain ⟨row, hd⟩ := exists_dispatch_eq_some hkey
  have hrow : (ir, row) ∈ dispatchTable s.params := findRow_mem _ ir row hd
  have henc : row.Encodes s.params ir := dispatchTable_encodes s.params ir row hrow
  have hdec : decode s.params ir opA opB = row.build opA opB := decode_of_dispatch hd opA opB
  obtain ⟨i, hi⟩ := row.exists_makes
  refine ⟨i, henc.opcode hi, ?_⟩
  rw [henc.registerOperands hi]
  refine ⟨fun hn hA7 => ?_, fun hA7 hn hB7 => ?_, fun hA7 hB7 => ?_⟩
  · exact step_of_decode_error hr hir hA hB (hdec.trans (Row.build_of_opA_gt hn hA7))
  · exact step_of_decode_error hr hir hA hB (hdec.trans (Row.build_of_opB_gt hn (hA7 (by omega)) hB7))
  · obtain ⟨j, hb⟩ := Row.exists_build_eq_ok hA7 hB7
    have hj : row.Makes j := ((Row.build_eq_ok (dispatchTable_laysOut hrow) opA opB j).1 hb).1
    exact ⟨j, hdec.trans hb, henc.opcode hj, henc.registerOperands hj,
      step_of_decode_ok hr hir hA hB (hdec.trans hb)⟩

/-! ## Fetch at the end of memory -/

/-- A memory read fails exactly outside memory (R51). -/
theorem memRead_eq_none (m : Memory) (a : Int) : memRead m a = none ↔ ¬ validAddr a := by
  rw [memRead, ite_eq_right_iff]
  exact ⟨fun h ha => Option.some_ne_none _ (h ha), fun h ha => absurd ha h⟩

/-- Where one of the three reads is at 256, the fetch raises AddressFault there: no earlier read is outside memory
(R111). -/
theorem State.fetchDecode_high {s : State} (hlo : 254 ≤ s.pc.toNat) (hhi : s.pc.toNat ≤ 256) :
    s.fetchDecode = .raised (memRead s.mem s.pc.toNat) ⟨.addressFault, 256⟩ := by
  have hin (a : Int) (h : 0 ≤ a ∧ a ≤ 255) := memRead_of_valid s.mem a ((validAddr_iff a).2 h)
  have hout : memRead s.mem 256 = none := memRead_of_invalid s.mem 256 (by decide)
  obtain hpc | hpc | hpc : s.pc.toNat = 254 ∨ s.pc.toNat = 255 ∨ s.pc.toNat = 256 := by omega
  · simp [State.fetchDecode, hpc, hin 254, hin 255, hout]
  · simp [State.fetchDecode, hpc, hin 255, hout]
  · simp [State.fetchDecode, hpc, hout]

/-- Settles O10: the step takes the fault of the read at 256. -/
theorem fetchPastMemoryRaisesAddressFault : Obligations.FetchPastMemoryRaisesAddressFault := by
  intro s hr hlo hhi
  refine ⟨step_of_raised hr (State.fetchDecode_high hlo hhi), ?_⟩
  rw [memRead_eq_none, validAddr_iff]
  omega

/-! ## Every running step has a next state -/

/-- The end of an instruction is a next state, whether it completes or faults (R211). -/
theorem State.exists_complete_eq_next (s : State) (o : Option Byte) (r : Except FaultCause State) :
    ∃ t, s.complete o r = .next t := by
  cases r with
  | ok t => exact ⟨t, s.complete_ok t o⟩
  | error c => exact ⟨_, s.complete_error o c⟩

/-- Every instruction answers a next state from every state: five of them may fault, the others run through (R114,
R210). -/
theorem exists_exec_eq_next (i : Instr) (s : State) : ∃ t, exec i s = .next t := by
  cases i with
  | mod | push | pop | call | ret => exact s.exists_complete_eq_next _ _
  | _ => exact ⟨_, rfl⟩

/-- Settles O16: the first three stages give an instruction or a fault, and each answers a next state. -/
theorem runningStepAnswersNextState : Obligations.RunningStepAnswersNextState := by
  intro s hr
  cases hf : s.fetchDecode with
  | instr i => exact step_of_instr hr hf ▸ exists_exec_eq_next i s
  | raised o c => exact ⟨_, step_of_raised hr hf⟩

end Sys2Proof.Machine
end

section
/-! PROOFS. The statements about machine control, immediate load and output (41_system_and_data.md): first the meaning
of the three instructions and the frame of a register write with its advance, said once, then the obligations. -/

namespace Sys2Proof.Machine

/-! ## The three instructions in terms of the state's updates -/

/-- HLT writes `run` (R130). -/
theorem exec_hlt (s : State) : exec .hlt s = .next (s.setRun .halted) := rfl

/-- LDI writes a register and advances (R131). -/
theorem exec_ldi (ra : Reg) (imm : Byte) (s : State) :
    exec (.ldi ra imm) s = .next ((s.setReg ra imm).advance 3) := rfl

/-- PRN appends to the output and advances (R132). -/
theorem exec_prn (ra : Reg) (s : State) : exec (.prn ra) s = .next ((s.output (s.getReg ra)).advance 2) := rfl

/-! ## Frames -/

/-- A register write followed by an advance, from where an instruction executes, leaves all else alone (R26, R27). -/
theorem State.onlyReg_setReg_advance (s : State) (ra : Reg) (v : Byte) {n : Pc} (hn : n.toNat ≤ 3)
    (hpc : s.pc.toNat ≤ 253) : s.OnlyReg ((s.setReg ra v).advance n) ra n.toNat :=
  ⟨s.sameRegsBut_setReg ra v, (s.setReg ra v).advance_pc_toNat n hn hpc, rfl, rfl, fun _ => rfl, rfl, rfl, rfl⟩

/-! ## The obligations -/

/-- Settles O19: `run` is the only component that HLT writes, so `pc` stays too (D20). -/
theorem hltHaltsAndKeepsAllElse : Obligations.HltHaltsAndKeepsAllElse := by
  intro s
  have hregs : s.SameRegsBut (s.setRun .halted) [] := fun r _ => s.setRun_getReg .halted r
  have hmem : s.SameMem (s.setRun .halted) := fun _ => rfl
  exact ⟨_, exec_hlt s, s.setRun_run .halted, s.setRun_pc .halted, hregs, rfl, rfl, hmem, rfl, rfl⟩

/-- Settles O20: the write is read back from its register, SP or not, and an advance of 3 does not wrap (R27). -/
theorem ldiLoadsTheImmediate : Obligations.LdiLoadsTheImmediate := by
  intro ra imm s hpc
  have hread : ((s.setReg ra imm).advance 3).getReg ra = imm := s.getReg_setReg_self ra imm
  exact ⟨_, exec_ldi ra imm s, hread, s.onlyReg_setReg_advance ra imm (by decide) hpc⟩

/-- Settles O21: the advance keeps the appended output, and the append keeps all else. -/
theorem prnAppendsToOutput : Obligations.PrnAppendsToOutput := by
  intro ra s hpc
  have hadv : ((s.output (s.getReg ra)).advance 2).pc.toNat = s.pc.toNat + 2 :=
    (s.output (s.getReg ra)).advance_pc_toNat 2 (by decide) hpc
  have hregs : s.SameRegsBut ((s.output (s.getReg ra)).advance 2) [] := fun r _ => s.output_getReg (s.getReg ra) r
  have hmem : s.SameMem ((s.output (s.getReg ra)).advance 2) := fun _ => rfl
  exact ⟨_, exec_prn ra s, s.output_out (s.getReg ra), hadv, hregs, rfl, hmem, rfl, rfl, rfl⟩

end Sys2Proof.Machine
end

section
/-! PROOFS. The statements about arithmetic and logic (42_alu.md): first what each ALU function answers and what an
instruction makes of the answer, said once, then the obligations. -/

namespace Sys2Proof.Machine

/-! ## The ALU functions -/

/-- The sum, modulo 256 (R140). -/
theorem alu_add (a b : Byte) : ∃ v, alu .add a b = .ok v ∧ v.toNat = (a.toNat + b.toNat) % 256 :=
  ⟨_, rfl, BitVec.toNat_ofNat _ 8⟩

/-- The difference, modulo 256 (R141). -/
theorem alu_sub (a b : Byte) : ∃ v, alu .sub a b = .ok v ∧ (v.toNat : Int) = ((a.toNat : Int) - b.toNat) % 256 := by
  refine ⟨_, rfl, ?_⟩
  rw [BitVec.toNat_ofInt]
  exact Int.toNat_of_nonneg (Int.emod_nonneg _ (by decide))

/-- The product, modulo 256 (R142). -/
theorem alu_mul (a b : Byte) : ∃ v, alu .mul a b = .ok v ∧ v.toNat = (a.toNat * b.toNat) % 256 :=
  ⟨_, rfl, BitVec.toNat_ofNat _ 8⟩

/-- The conjunction, bit by bit (R143). -/
theorem alu_and (a b : Byte) :
    ∃ v, alu .and a b = .ok v ∧ ∀ k < 8, v.getLsbD k = (a.getLsbD k && b.getLsbD k) :=
  ⟨_, rfl, fun _ _ => BitVec.getLsbD_and⟩

/-- The disjunction, bit by bit (R144). -/
theorem alu_or (a b : Byte) :
    ∃ v, alu .or a b = .ok v ∧ ∀ k < 8, v.getLsbD k = (a.getLsbD k || b.getLsbD k) :=
  ⟨_, rfl, fun _ _ => BitVec.getLsbD_or⟩

/-- The exclusive disjunction, bit by bit (R145). -/
theorem alu_xor (a b : Byte) :
    ∃ v, alu .xor a b = .ok v ∧ ∀ k < 8, v.getLsbD k = (a.getLsbD k ^^ b.getLsbD k) :=
  ⟨_, rfl, fun _ _ => BitVec.getLsbD_xor⟩

/-- The complement; the second operand does not matter (R146). -/
theorem alu_not (a b : Byte) : ∃ v, alu .not a b = .ok v ∧ v.toNat = 255 - a.toNat :=
  ⟨_, rfl, BitVec.toNat_not⟩

/-- The left shift by the whole second operand, modulo 256; from 8 on no bit is left (R147). -/
theorem alu_shl (a b : Byte) :
    ∃ v, alu .shl a b = .ok v ∧ v.toNat = (a.toNat * 2 ^ b.toNat) % 256 ∧ (8 ≤ b.toNat → v = 0) := by
  refine ⟨_, rfl, ?_, BitVec.shiftLeft_eq_zero⟩
  rw [BitVec.toNat_shiftLeft, Nat.shiftLeft_eq]

/-- The logical right shift by the whole second operand; from 8 on no bit is left (R148). -/
theorem alu_shr (a b : Byte) :
    ∃ v, alu .shr a b = .ok v ∧ v.toNat = a.toNat / 2 ^ b.toNat ∧ (8 ≤ b.toNat → v = 0) := by
  refine ⟨_, rfl, ?_, BitVec.ushiftRight_eq_zero⟩
  rw [BitVec.toNat_ushiftRight, Nat.shiftRight_eq_div_pow]

/-- The remainder by a divisor that is not 0; it fits, being at most the dividend (R149). -/
theorem alu_mod {b : Byte} (a : Byte) (hb : b ≠ 0) :
    ∃ v, alu .mod a b = .ok v ∧ v.toNat = a.toNat % b.toNat := by
  refine ⟨_, if_neg hb, ?_⟩
  rw [BitVec.toNat_ofNat]
  exact Nat.mod_eq_of_lt ((Nat.mod_le _ _).trans_lt a.isLt)

/-- MOD by 0 fails, with the dividend as `info` (R149, R202). -/
theorem alu_mod_zero {b : Byte} (a : Byte) (hb : b = 0) :
    alu .mod a b = .error { kind := .divisionByZero, info := a.toNat } :=
  if_pos hb

/-- Settles O22: the ten functions one by one, MOD with its two cases. -/
theorem aluFunctionsCompute : Obligations.AluFunctionsCompute := by
  intro a b
  obtain ⟨l, hl, hlval, -⟩ := alu_shl a b
  obtain ⟨r, hr, hrval, -⟩ := alu_shr a b
  exact ⟨alu_add a b, alu_sub a b, alu_mul a b, alu_and a b, alu_or a b, alu_xor a b, alu_not a b, ⟨l, hl, hlval⟩,
    ⟨r, hr, hrval⟩, alu_mod a, alu_mod_zero a⟩

/-! ## What an instruction makes of the ALU's answer -/

/-- An instruction whose ALU function answers writes the answer to its destination, advances and leaves all else alone,
the destination being one of its sources or not (R146, R161). -/
theorem State.exists_complete_aluInto {s : State} {f : AluFn} {ra : Reg} {b : Byte} {P : Byte → Prop} (o : Option Byte)
    (n : Pc) (hn : n.toNat ≤ 3) (hf : ∃ v, alu f (s.getReg ra) b = .ok v ∧ P v) (hpc : s.pc.toNat ≤ 253) :
    ∃ t, s.complete o (s.aluInto f ra b n) = .next t ∧ P (t.getReg ra) ∧ s.OnlyReg t ra n.toNat := by
  obtain ⟨v, hv, hP⟩ := hf
  have hread : ((s.setReg ra v).advance n).getReg ra = v := s.getReg_setReg_self ra v
  refine ⟨(s.setReg ra v).advance n, ?_, hread.symm ▸ hP, s.onlyReg_setReg_advance ra v hn hpc⟩
  rw [State.aluInto, hv]
  exact State.complete_ok _ _ _

/-- An instruction whose ALU function fails takes the fault (R211). -/
theorem State.complete_aluInto_of_error {s : State} {f : AluFn} {ra : Reg} {b : Byte} {c : FaultCause} (o : Option Byte)
    (n : Pc) (hf : alu f (s.getReg ra) b = .error c) :
    s.complete o (s.aluInto f ra b n) = .next (s.raise o c) := by
  rw [State.aluInto, hf]
  exact s.complete_error o c

/-! ## The instructions -/

/-- Settles O23: ADD puts the sum into its first register. -/
theorem addAddsModulo256 : Obligations.AddAddsModulo256 := by
  intro ra rb s hpc
  exact State.exists_complete_aluInto (some opcAdd) 3 (by decide) (alu_add (s.getReg ra) (s.getReg rb)) hpc

/-- Settles O24: MUL puts the product into its first register. -/
theorem mulMultipliesModulo256 : Obligations.MulMultipliesModulo256 := by
  intro ra rb s hpc
  exact State.exists_complete_aluInto (some opcMul) 3 (by decide) (alu_mul (s.getReg ra) (s.getReg rb)) hpc

/-- Settles O25: ADDI puts the sum of two registers into the first, with an advance of its own (D4). -/
theorem addiAddsARegisterAndAdvancesTwo : Obligations.AddiAddsARegisterAndAdvancesTwo := by
  intro ra rb s hpc
  exact State.exists_complete_aluInto s.params.opcAddi 2 (by decide) (alu_add (s.getReg ra) (s.getReg rb)) hpc

/-- Settles O26: SUB puts the difference into its first register. -/
theorem subSubtractsModulo256 : Obligations.SubSubtractsModulo256 := by
  intro ra rb s hpc
  exact State.exists_complete_aluInto (some opcSub) 3 (by decide) (alu_sub (s.getReg ra) (s.getReg rb)) hpc

/-- Settles O27: MOD puts the remainder into its first register, where there is one. -/
theorem modLeavesTheRemainder : Obligations.ModLeavesTheRemainder := by
  intro ra rb s hpc hb
  exact State.exists_complete_aluInto (some opcMod) 3 (by decide) (alu_mod (s.getReg ra) hb) hpc

/-- Settles O28: MOD by 0 takes the ALU's fault, and fault entry writes no register. -/
theorem modByZeroRaisesDivisionByZero : Obligations.ModByZeroRaisesDivisionByZero := by
  intro ra rb s hb
  exact State.complete_aluInto_of_error (some opcMod) 3 (alu_mod_zero (s.getReg ra) hb)

/-- Settles O29: NOT puts the complement into its register; the second ALU operand is 0. -/
theorem notComplements : Obligations.NotComplements := by
  intro ra s hpc
  exact State.exists_complete_aluInto (some opcNot) 2 (by decide) (alu_not (s.getReg ra) 0) hpc

/-- Settles O30: the three put the bitwise answers into their first register. -/
theorem andOrXorWorkBitByBit : Obligations.AndOrXorWorkBitByBit := by
  intro ra rb s hpc
  obtain ⟨t, ht, htval, htonly⟩ :=
    State.exists_complete_aluInto (some opcAnd) 3 (by decide) (alu_and (s.getReg ra) (s.getReg rb)) hpc
  obtain ⟨u, hu, huval, huonly⟩ :=
    State.exists_complete_aluInto (some opcOr) 3 (by decide) (alu_or (s.getReg ra) (s.getReg rb)) hpc
  obtain ⟨w, hw, hwval, hwonly⟩ :=
    State.exists_complete_aluInto (some opcXor) 3 (by decide) (alu_xor (s.getReg ra) (s.getReg rb)) hpc
  exact ⟨⟨t, ht, htonly, htval⟩, ⟨u, hu, huonly, huval⟩, ⟨w, hw, hwonly, hwval⟩⟩

/-- Settles O31: the shift amount is the whole register, so both ALU facts about it carry over. -/
theorem shiftsTakeTheWholeAmount : Obligations.ShiftsTakeTheWholeAmount := by
  intro ra rb s hpc
  obtain ⟨t, ht, ⟨htval, htzero⟩, htonly⟩ :=
    State.exists_complete_aluInto (some opcShl) 3 (by decide) (alu_shl (s.getReg ra) (s.getReg rb)) hpc
  obtain ⟨u, hu, ⟨huval, huzero⟩, huonly⟩ :=
    State.exists_complete_aluInto (some opcShr) 3 (by decide) (alu_shr (s.getReg ra) (s.getReg rb)) hpc
  exact ⟨⟨t, ht, htonly, htval, htzero⟩, ⟨u, hu, huonly, huval, huzero⟩⟩

/-! ## The byte after ADDI's first operand -/

/-- An enabled ADDI decodes from `OPC_ADDI` and two bytes of at most 7 (R87, R113). -/
theorem exists_decode_addi {p : Params} {c opA opB : Byte} (hp : p.wf = true) (hc : p.opcAddi = some c)
    (hA : opA.toNat ≤ 7) (hB : opB.toNat ≤ 7) : ∃ ra rb, decode p c opA opB = .ok (.addi ra rb) := by
  obtain ⟨ra, hra⟩ := exists_regOperand_eq_ok hA
  obtain ⟨rb, hrb⟩ := exists_regOperand_eq_ok hB
  have hops : (Instr.addi ra rb).operandBytes = [opA, opB] := by
    rw [Instr.operandBytes, (regOperand_eq_ok opA ra).1 hra, (regOperand_eq_ok opB rb).1 hrb]
  exact ⟨ra, rb, decode_of_opcode_of_operandBytes hp hc (hops ▸ List.prefix_rfl)⟩

/-- HLT decodes from its opcode byte, whatever the two bytes after it are (R86, R113). -/
theorem decode_opcHlt (p : Params) (opA opB : Byte) : decode p opcHlt opA opB = .ok .hlt := rfl

/-- A running step at an HLT byte with two more bytes of memory after it halts (R111, R130). -/
theorem step_of_opcHlt {s : State} (hr : s.run = .running) (hpc : s.pc.toNat ≤ 253)
    (hir : memRead s.mem s.pc.toNat = some opcHlt) : step s = .next (s.setRun .halted) := by
  have hA := memRead_of_valid s.mem (s.pc.toNat + 1) ((validAddr_iff _).2 (by omega))
  have hB := memRead_of_valid s.mem (s.pc.toNat + 2) ((validAddr_iff _).2 (by omega))
  exact (step_of_decode_ok hr hir hA hB (decode_opcHlt _ _ _)).trans (exec_hlt s)

/-- Settles O54: ADDI leaves memory and RUNNING as they are, and its advance of 2 puts `pc` on operand B. -/
theorem addiOperandByteRunsAsTheNextOpcode : Obligations.AddiOperandByteRunsAsTheNextOpcode := by
  intro s c opA hr hp hc hpc hA7 hir hA hB
  obtain ⟨ra, rb, hd⟩ := exists_decode_addi (opB := 0x01) hp hc hA7 (by decide)
  obtain ⟨t, ht, -, -, htpc, -, -, htmem, htrun, -, -⟩ := addiAddsARegisterAndAdvancesTwo ra rb s (by omega)
  have hrun : t.run = .running := htrun.trans hr
  have hread : memRead t.mem t.pc.toNat = some opcHlt := by
    rw [htmem, htpc]
    exact hB
  exact ⟨t, t.setRun .halted, (step_of_decode_ok hr hir hA hB hd).trans ht, hrun, htpc,
    step_of_opcHlt hrun (by omega) hread, t.setRun_run .halted, t.setRun_pc .halted⟩

end Sys2Proof.Machine
end

section
/-! PROOFS. The statements about PUSH and POP (43_stack.md): first what the two leave in SP and in the register, said
once and whatever `pc` is, then the obligations. -/

namespace Sys2Proof.Machine

/-! ## Moving SP by one -/

/-- The decrement of PUSH and CALL does not wrap where they complete (R170, R204). -/
theorem byte_pred_toNat {v : Byte} (h : v ≠ 0) : (v - 1).toNat + 1 = v.toNat := by bv_omega

/-- Below `STACK_TOP` a pop completes (R171, R205). -/
theorem State.not_popBound_le_sp {s : State} (h : s.sp.toNat < 0xF4) : ¬ popBound ≤ s.sp := by
  rw [popBound_le_iff]; omega

/-! ## What PUSH leaves -/

/-- PUSH leaves SP one lower (R170). -/
theorem execPush_sp {ra : Reg} {s t : State} (hsp : s.sp ≠ 0) (h : exec (.push ra) s = .next t) :
    t.sp = s.sp - 1 := by
  cases (execPush_pos ra s hsp).symm.trans h
  exact s.setSp_sp (s.sp - 1)

/-- PUSH keeps every cell but the one at the new SP (R170). -/
theorem execPush_sameMemBut {ra : Reg} {s t : State} (hm : Memory.wf s.mem) (hsp : s.sp ≠ 0)
    (h : exec (.push ra) s = .next t) : s.SameMemBut t (s.sp - 1).toNat := by
  cases (execPush_pos ra s hsp).symm.trans h
  exact fun _ ha => (memRead_update_byte s.mem hm (s.sp - 1) _ _).trans (if_neg ha)

/-- PUSH writes no register but SP (R23, R170). -/
theorem execPush_sameRegsBut {ra : Reg} {s t : State} (h : exec (.push ra) s = .next t) : s.SameRegsBut t [7] :=
  onlyTableRegistersAreWritten (.push ra) s t h

/-! ## What POP leaves -/

/-- A pop into a register other than SP leaves the popped byte there: the increment of SP comes after (R171). -/
theorem State.popInto_getReg (s : State) {ra : Reg} (v : Byte) (h : ra ≠ 7) :
    ((s.setReg ra v).dropTop.advance 2).getReg ra = v :=
  ((s.setReg ra v).setSp_getReg_of_ne _ h).trans (s.getReg_setReg_self ra v)

/-- A pop into a register other than SP leaves SP one higher (R171). -/
theorem State.popInto_sp (s : State) {ra : Reg} (v : Byte) (h : ra ≠ 7) :
    ((s.setReg ra v).dropTop.advance 2).sp = s.sp + 1 :=
  (s.setReg ra v).dropTop_sp.trans (congrArg (· + 1) (s.setReg_sp_of_ne v h))

/-- A pop into SP itself ends as the popped byte plus 1 (R171). -/
theorem State.popIntoSp_sp (s : State) (v : Byte) : ((s.setReg 7 v).dropTop.advance 2).sp = v + 1 :=
  (s.setReg 7 v).dropTop_sp.trans (congrArg (· + 1) (s.getReg_setReg_self 7 v))

/-! ## The obligations -/

/-- Settles O32: the decrement does not wrap, and the stored byte is read in the state after it. -/
theorem pushStoresBelowSp : Obligations.PushStoresBelowSp := by
  intro ra s hpc hm hsp
  have h : exec (.push ra) s = .next _ := execPush_pos ra s hsp
  have hdec := byte_pred_toNat hsp
  rw [← execPush_sp hsp h] at hdec
  exact ⟨_, h, hdec, execPush_memRead hm hsp h, execPush_sameMemBut hm hsp h, execPush_sameRegsBut h,
    State.advance_pc_toNat _ 2 (by decide) hpc, rfl, rfl, rfl, rfl, rfl⟩

/-- Settles O34: the register is written before SP is incremented, so R7 as the destination is incremented too. -/
theorem popLoadsFromSp : Obligations.PopLoadsFromSp := by
  intro ra s hpc hsp
  have hadv := (s.setReg ra (Memory.lookup s.mem s.sp.toNat)).dropTop.advance_pc_toNat 2 (by decide) hpc
  refine ⟨_, _, execPop_full ra s (State.not_popBound_le_sp hsp), memRead_byte s.mem s.sp, fun hra => ⟨?_, ?_⟩,
    fun hra => ?_, s.sameRegsBut_setReg_setSp ra _ _, hadv, rfl, rfl, fun _ => rfl, rfl, rfl, rfl⟩
  · exact s.popInto_getReg _ hra
  · rw [s.popInto_sp _ hra]
    bv_omega
  · subst hra
    rw [s.popIntoSp_sp]
    exact BitVec.toNat_add _ 1

/-- Settles O39: POP reads the cell that PUSH wrote, at an SP that is below the top again, and moves SP back. -/
theorem pushThenPopGivesTheValueBack : Obligations.PushThenPopGivesTheValueBack := by
  intro ra rb s t u hra hrb hm hsp htop h husp hcell
  have hspu : u.sp = s.sp - 1 := husp.trans (execPush_sp hsp h)
  have hkept : t.getReg ra = s.getReg ra := execPush_sameRegsBut h ra (by simpa using hra)
  have hread : memRead u.mem u.sp.toNat = some (s.getReg ra) := by
    rw [hcell, hspu, execPush_memRead hm hsp h, hkept]
  have hbyte : Memory.lookup u.mem u.sp.toNat = s.getReg ra :=
    Option.some.inj ((memRead_byte u.mem u.sp).symm.trans hread)
  have hlow : u.sp.toNat < 0xF4 := by
    have hdec := byte_pred_toNat hsp
    rw [hspu]
    omega
  refine ⟨_, execPop_full rb u (State.not_popBound_le_sp hlow), ?_, ?_⟩
  · exact (u.popInto_getReg _ hrb).trans hbyte
  · rw [u.popInto_sp _ hrb, hspu, BitVec.sub_add_cancel]

end Sys2Proof.Machine
end

section
/-! PROOFS. The statements about CALL and RET (44_subroutine.md): first what CALL leaves in SP and memory and what RET
makes of the byte at SP, said once and whatever `pc` is, then the obligations. -/

namespace Sys2Proof.Machine

/-! ## What CALL leaves -/

/-- CALL leaves SP one lower (R180). -/
theorem execCall_sp {ra : Reg} {s t : State} (hsp : s.sp ≠ 0) (h : exec (.call ra) s = .next t) :
    t.sp = s.sp - 1 := by
  cases (execCall_pos ra s hsp).symm.trans h
  exact s.setSp_sp (s.sp - 1)

/-- CALL changes the cell at the new SP, to the return address, and no other (R180). -/
theorem execCall_memRead {ra : Reg} {s t : State} (hm : Memory.wf s.mem) (hsp : s.sp ≠ 0)
    (h : exec (.call ra) s = .next t) (a : Int) :
    memRead t.mem a = if a = (s.sp - 1).toNat then some s.returnAddress else memRead s.mem a := by
  cases (execCall_pos ra s hsp).symm.trans h
  exact memRead_update_byte s.mem hm (s.sp - 1) s.returnAddress a

/-- CALL jumps to its register as it stands after the decrement of SP (R180). -/
theorem execCall_pc {ra : Reg} {s t : State} (hsp : s.sp ≠ 0) (h : exec (.call ra) s = .next t) :
    t.pc = t.target ra := by
  cases (execCall_pos ra s hsp).symm.trans h
  rfl

/-! ## What RET makes of the byte at SP -/

/-- Below `STACK_TOP`, RET jumps to the byte at SP and drops it (R181). -/
theorem execRet_of_memRead {s : State} {v : Byte} (hsp : s.sp.toNat < 0xF4)
    (hv : memRead s.mem s.sp.toNat = some v) : exec .ret s = .next (s.setPc (zext9 v)).dropTop := by
  cases (memRead_byte s.mem s.sp).symm.trans hv
  exact execRet_full s (State.not_popBound_le_sp hsp)

/-! ## The obligations -/

/-- Settles O36: the decrement does not wrap, the return address fits a cell (R27), and the target is read in the state
after the decrement. -/
theorem callPushesReturnAddressAndJumps : Obligations.CallPushesReturnAddressAndJumps := by
  intro ra s hpc hm hsp
  have h : exec (.call ra) s = .next _ := execCall_pos ra s hsp
  have hdec := byte_pred_toNat hsp
  rw [← execCall_sp hsp h] at hdec
  have hjump := congrArg BitVec.toNat (execCall_pc hsp h)
  rw [State.target_toNat] at hjump
  have hmem := execCall_memRead hm hsp h
  exact ⟨_, _, h, hdec, (hmem _).trans (if_pos rfl), s.returnAddress_toNat hpc, fun a ha => (hmem a).trans (if_neg ha),
    hjump, onlyTableRegistersAreWritten (.call ra) s _ h, rfl, rfl, rfl, rfl, rfl⟩

/-- Settles O37: below the top the increment of SP does not wrap. -/
theorem retJumpsToThePoppedByte : Obligations.RetJumpsToThePoppedByte := by
  intro s hsp
  have hv := memRead_byte s.mem s.sp
  have h := execRet_of_memRead hsp hv
  refine ⟨_, _, h, hv, zext9_toNat _, ?_, onlyTableRegistersAreWritten .ret s _ h, rfl, rfl, fun _ => rfl, rfl, rfl, rfl⟩
  have hinc : (s.setPc (zext9 (Memory.lookup s.mem s.sp.toNat))).dropTop.sp = s.sp + 1 := State.dropTop_sp _
  rw [hinc]
  bv_omega

/-- Settles O38: CALL leaves SP below the top with the return address there, and RET reads that cell and moves SP
back. -/
theorem callThenRetResumesAfterTheCall : Obligations.CallThenRetResumesAfterTheCall := by
  intro ra s t u hpc hm hsp htop h husp hcell
  have hspu : u.sp = s.sp - 1 := husp.trans (execCall_sp hsp h)
  have hread : memRead u.mem u.sp.toNat = some s.returnAddress := by
    rw [hcell, hspu, execCall_memRead hm hsp h, if_pos rfl]
  have hlow : u.sp.toNat < 0xF4 := by
    have hdec := byte_pred_toNat hsp
    rw [hspu]
    omega
  refine ⟨_, execRet_of_memRead hlow hread, (zext9_toNat _).trans (s.returnAddress_toNat hpc), ?_⟩
  calc (u.setPc (zext9 s.returnAddress)).dropTop.sp
      _ = u.sp + 1 := State.dropTop_sp _
      _ = s.sp := by rw [hspu, BitVec.sub_add_cancel]

end Sys2Proof.Machine
end

section
/-! PROOFS. The statements about compare and the jumps (45_compare_and_branch.md): first what a comparison answers and
what a move of `pc` leaves alone, said once, then the obligations. -/

namespace Sys2Proof.Machine

/-! ## The comparison -/

/-- A comparison gives EQUAL, LESS_THAN or GREATER_THAN exactly where its first byte equals, is below or is above its
second, unsigned (R190, D14). -/
theorem compareFlags_eq_iff (a b : Byte) :
    (compareFlags a b = .equal ↔ a = b) ∧ (compareFlags a b = .lessThan ↔ a.toNat < b.toNat) ∧
      (compareFlags a b = .greaterThan ↔ b.toNat < a.toNat) := by
  rw [← BitVec.toNat_inj]
  unfold compareFlags
  split
  · next heq => simp [heq]
  · next hne =>
    split
    · next hlt => simp [hne, hlt, hlt.le]
    · next hge =>
      have hgt : b.toNat < a.toNat := by omega
      simp [hne, hgt, hgt.le]

/-! ## The instructions in terms of the state's updates -/

/-- CMP writes `FL` and advances (R190). -/
theorem exec_cmp (ra rb : Reg) (s : State) :
    exec (.cmp ra rb) s = .next ((s.setFl (compareFlags (s.getReg ra) (s.getReg rb))).advance 3) := rfl

/-- Where the branch controller puts `pc`: at the target in a register where the jump is taken, else past its two
bytes (R191, R192). -/
def State.jumpIf (s : State) (taken : Prop) [Decidable taken] (ra : Reg) : State :=
  s.setPc (if taken then s.target ra else s.pc + 2)

/-- A conditional jump as the model writes it, one state per branch, moves only `pc`. -/
theorem State.ite_setPc_advance (s : State) (taken : Prop) [Decidable taken] (ra : Reg) :
    (if taken then s.setPc (s.target ra) else s.advance 2) = s.jumpIf taken ra :=
  (apply_ite s.setPc taken _ _).symm

/-- JEQ is taken where `FL` is EQUAL (R191). -/
theorem exec_jeq (ra : Reg) (s : State) : exec (.jeq ra) s = .next (s.jumpIf (s.fl = .equal) ra) :=
  congrArg _ (s.ite_setPc_advance (s.fl = .equal) ra)

/-- JNE is taken where `FL` is not EQUAL (R192). -/
theorem exec_jne (ra : Reg) (s : State) : exec (.jne ra) s = .next (s.jumpIf (s.fl ≠ .equal) ra) :=
  congrArg _ (s.ite_setPc_advance (s.fl ≠ .equal) ra)

/-- JMP moves `pc` to its target (R193). -/
theorem exec_jmp (ra : Reg) (s : State) : exec (.jmp ra) s = .next (s.setPc (s.target ra)) := rfl

/-! ## Moving `pc` -/

/-- A move of `pc` leaves all else alone. -/
theorem State.onlyPc_setPc (s : State) (q : Pc) : s.OnlyPc (s.setPc q) :=
  ⟨fun r _ => s.setPc_getReg q r, rfl, rfl, fun _ => rfl, rfl, rfl, rfl⟩

/-- The target is zero-extended, and past the two bytes `pc` does not wrap (R26, R27). -/
theorem State.jumpIf_pc_toNat (s : State) (taken : Prop) [Decidable taken] (ra : Reg) (hpc : s.pc.toNat ≤ 253) :
    (s.jumpIf taken ra).pc.toNat = if taken then (s.getReg ra).toNat else s.pc.toNat + 2 := by
  have hadv : (s.pc + 2).toNat = s.pc.toNat + 2 := s.advance_pc_toNat 2 (by decide) hpc
  rw [State.jumpIf, State.setPc_pc, apply_ite BitVec.toNat, s.target_toNat, hadv]

/-! ## The obligations -/

/-- Settles O42: each outcome of the comparison is one of the three relations of the two bytes. -/
theorem cmpSetsTheFlags : Obligations.CmpSetsTheFlags := by
  intro ra rb s hpc
  have h := exec_cmp ra rb s
  have hadv := (s.setFl (compareFlags (s.getReg ra) (s.getReg rb))).advance_pc_toNat 3 (by decide) hpc
  obtain ⟨hequal, hless, hgreater⟩ := compareFlags_eq_iff (s.getReg ra) (s.getReg rb)
  exact ⟨_, h, hequal, hless, hgreater, compareFlags_ne_unset _ _, hadv,
    onlyTableRegistersAreWritten (.cmp ra rb) s _ h, rfl, fun _ => rfl, rfl, rfl, rfl⟩

/-- Settles O43: a jump on EQUAL. -/
theorem jeqJumpsExactlyWhenEqual : Obligations.JeqJumpsExactlyWhenEqual := by
  intro ra s hpc
  exact ⟨_, exec_jeq ra s, s.onlyPc_setPc _, s.jumpIf_pc_toNat _ ra hpc⟩

/-- Settles O44: a jump on anything but EQUAL, so the statement's two branches are those of the jump exchanged. -/
theorem jneJumpsExactlyWhenNotEqual : Obligations.JneJumpsExactlyWhenNotEqual := by
  intro ra s hpc
  have hjump := s.jumpIf_pc_toNat (s.fl ≠ .equal) ra hpc
  rw [ite_not] at hjump
  exact ⟨_, exec_jne ra s, s.onlyPc_setPc _, hjump⟩

/-- Settles O45: a move of `pc` to the zero-extended register. -/
theorem jmpJumps : Obligations.JmpJumps := by
  intro ra s
  exact ⟨_, exec_jmp ra s, s.onlyPc_setPc _, s.target_toNat ra⟩

end Sys2Proof.Machine
end

section
/-! PROOFS. The statements about faults (60_exceptions.md): first the opcode byte and the cause behind a fault of each
stage, and what a faulting step is, said once, then the obligations. -/

namespace Sys2Proof

/-- The byte that the decoder calls an illegal opcode is the fetched one, and it is no key (R90, R203). -/
theorem eq_and_not_mem_of_decode_illegalOpcode {p : Params} {ir opA opB b : Byte}
    (h : decode p ir opA opB = .error (.illegalOpcode b)) : b = ir ∧ b ∉ dispatchKeys p := by
  unfold decode at h
  split at h
  next hd =>
    cases h
    exact ⟨rfl, (dispatch_none p ir).1 hd⟩
  next row _ => obtain ⟨-, e⟩ | ⟨-, -, e⟩ := build_error row opA opB _ h <;> cases e

end Sys2Proof

namespace Sys2Proof.Machine

/-! ## The opcode byte behind a fetched instruction or a fault -/

/-- Where an instruction executes, the three fetch reads answer bytes (R27, R111). -/
theorem State.exists_reads {s : State} (hpc : s.pc.toNat ≤ 253) : ∃ ir opA opB : Byte,
    memRead s.mem s.pc.toNat = some ir ∧ memRead s.mem (s.pc.toNat + 1) = some opA ∧
      memRead s.mem (s.pc.toNat + 2) = some opB := by
  have hin (a : Int) (h : 0 ≤ a ∧ a ≤ 255) := memRead_of_valid s.mem a ((validAddr_iff a).2 h)
  exact ⟨_, _, _, hin _ (by omega), hin _ (by omega), hin _ (by omega)⟩

/-- A fetched instruction is one of the opcode byte at `pc` (R112). -/
theorem State.exists_opcode_of_instr {s : State} {i : Instr} (h : s.fetchDecode = .instr i) :
    ∃ ir, memRead s.mem s.pc.toNat = some ir ∧ i.opcode s.params = some ir := by
  obtain ⟨ir, opA, opB, hir, hA, hB⟩ := State.exists_reads (s.fetchDecode_instr i h)
  rw [State.fetchDecode_of_reads hir hA hB, decodeStage_instr] at h
  exact ⟨ir, hir, (opcode_and_operandBytes_of_decode h).1⟩

/-- A fault of the first three stages records what the opcode read answers, whichever of them raises it (R32, R111). -/
theorem State.opcode_of_raised {s : State} {o : Option Byte} {c : FaultCause} (h : s.fetchDecode = .raised o c) :
    o = memRead s.mem s.pc.toNat := by
  simp only [State.fetchDecode] at h
  split at h
  next hir => cases h; exact hir.symm
  next ir hir =>
    rw [hir]
    split at h
    · cases h; rfl
    · split at h
      · cases h; rfl
      · exact (decodeStage_raised _ _ _ _ _ _ h).1

/-- An instruction's own fault records the opcode byte of its row (R32). -/
theorem OwnFault.opcode {s : State} {i : Instr} {o : Option Byte} {c : FaultCause} {ir : Byte} (h : OwnFault s i o c)
    (hi : i.opcode s.params = some ir) : o = some ir := by
  cases h with
  | mod =>
    obtain ⟨-, hir⟩ := Option.ite_none_right_eq_some.1 hi
    exact hir
  | _ => exact hi

/-! ## The faults of a step -/

/-- The step from `s` raises the fault `c` with opcode byte `o`: its fetched instruction does, or one of the stages
before it (R210). -/
def State.Raises (s : State) (o : Option Byte) (c : FaultCause) : Prop :=
  (∃ i, s.fetchDecode = .instr i ∧ OwnFault s i o c) ∨ s.fetchDecode = .raised o c

/-- A step that leaves FAULTED is a fault entry, for a fault that the step raises (R31, R212). -/
theorem exists_raises_of_faulted {s t : State} (h : step s = .next t) (hf : t.run = .faulted) :
    ∃ o c, s.Raises o c ∧ t = s.raise o c := by
  obtain ⟨hr, ⟨i, hi, he⟩ | ⟨o, c, hc, ht⟩⟩ := step_cases s t h
  · obtain ⟨o, c, hc, ht⟩ | ⟨-, -, hrun | ⟨-, hrun⟩⟩ := exec_control i s t he
    · exact ⟨o, c, .inl ⟨i, hi, hc⟩, ht⟩
    · simp [hf, hr] at hrun
    · simp [hf] at hrun
  · exact ⟨o, c, .inr hc, ht⟩

/-- The recorded opcode byte is the one at `pc` (R32). -/
theorem State.Raises.opcode {s : State} {o : Option Byte} {c : FaultCause} (h : s.Raises o c) :
    o = memRead s.mem s.pc.toNat := by
  obtain ⟨i, hi, hc⟩ | hc := h
  · obtain ⟨ir, hir, hop⟩ := State.exists_opcode_of_instr hi
    exact (hc.opcode hop).trans hir.symm
  · exact State.opcode_of_raised hc

/-! ## The cause a record gives -/

/-- Fault entry leaves in place all that a cause speaks of (R211). -/
theorem FaultRecord.causeHolds_raise (r : FaultRecord) (s : State) (o : Option Byte) (c : FaultCause) :
    r.causeHolds (s.raise o c) ↔ r.causeHolds s := Iff.rfl

/-- What an instruction's own fault says of its operand, its divisor or SP is so (R202, R204, R205). -/
theorem OwnFault.causeHolds {s : State} {i : Instr} {o : Option Byte} {c : FaultCause} (h : OwnFault s i o c)
    (hi : s.fetchDecode = .instr i) : FaultRecord.causeHolds ⟨c.kind, o, s.pc, c.info⟩ s := by
  cases h with
  | push ra hsp => exact ⟨hsp, rfl, ra, .inl hi⟩
  | call ra hsp => exact ⟨hsp, rfl, ra, .inr hi⟩
  | pop ra hsp => exact ⟨(popBound_le_iff s.sp).1 hsp, rfl, .inr ⟨ra, hi⟩⟩
  | ret hsp => exact ⟨(popBound_le_iff s.sp).1 hsp, rfl, .inl hi⟩
  | mod ra rb hb => exact ⟨ra, rb, hi, hb, rfl⟩

/-- What the decoder's fault says of the fetched bytes is so: the opcode byte is no key, or an operand byte used as a
register index is above 7, A before B (R203, R206, R113). -/
theorem causeHolds_of_decode_error {s : State} {ir opA opB : Byte} {e : DecodeError}
    (hA : memRead s.mem (s.pc.toNat + 1) = some opA) (hB : memRead s.mem (s.pc.toNat + 2) = some opB)
    (hd : decode s.params ir opA opB = .error e) :
    FaultRecord.causeHolds ⟨(decodeErrorCause e).kind, some ir, s.pc, (decodeErrorCause e).info⟩ s := by
  cases e with
  | illegalOpcode b =>
    obtain ⟨rfl, hkey⟩ := eq_and_not_mem_of_decode_illegalOpcode hd
    exact ⟨b, rfl, hkey, rfl⟩
  | registerIndex op =>
    obtain ⟨i, hop, h7, ⟨hn, rfl⟩ | ⟨hn, rfl, hA7⟩⟩ := decode_registerIndex _ _ _ _ _ hd
    · exact ⟨ir, op, i, rfl, hop, h7, rfl, .inl ⟨hn, hA⟩⟩
    · exact ⟨ir, op, i, rfl, hop, h7, rfl, .inr ⟨hn, hB, opA, hA, hA7⟩⟩

/-- The cause of a fault of the first three stages holds: up to 253 it is the decoder's, and from 254 on one of the
three reads is at 256 (R201, R203, R206). -/
theorem causeHolds_of_raised {s : State} {o : Option Byte} {c : FaultCause} (hpc : s.pc.toNat ≤ 256)
    (h : s.fetchDecode = .raised o c) : FaultRecord.causeHolds ⟨c.kind, o, s.pc, c.info⟩ s := by
  by_cases hlow : s.pc.toNat ≤ 253
  · obtain ⟨ir, opA, opB, hir, hA, hB⟩ := State.exists_reads hlow
    rw [State.fetchDecode_of_reads hir hA hB] at h
    obtain ⟨rfl, e, hd, rfl⟩ := decodeStage_raised _ ir opA opB o c h
    exact causeHolds_of_decode_error hA hB hd
  · have hhigh : 254 ≤ s.pc.toNat := by omega
    cases (State.fetchDecode_high hhigh hpc).symm.trans h
    exact ⟨hhigh, rfl⟩

/-- The cause of every fault that a step raises holds (R200). -/
theorem State.Raises.causeHolds {s : State} {o : Option Byte} {c : FaultCause} (hpc : s.pc.toNat ≤ 256)
    (h : s.Raises o c) : FaultRecord.causeHolds ⟨c.kind, o, s.pc, c.info⟩ s := by
  obtain ⟨i, hi, hc⟩ | hc := h
  · exact hc.causeHolds hi
  · exact causeHolds_of_raised hpc hc

/-! ## SP after a completed pop -/

/-- SP one above a byte below `STACK_TOP` is at most `STACK_TOP` (R205). -/
theorem byte_succ_le_stackTop {v : Byte} (h : ¬ popBound ≤ v) : (v + 1).toNat ≤ 0xF4 := by
  rw [popBound_le_iff] at h
  bv_omega

/-! ## The obligations -/

/-- Settles O13: a record after a step is that of a fault which the step raises, since the invariant allows a record in
FAULTED only and a step starts in RUNNING. -/
theorem faultRecordStaysTrue : Obligations.FaultRecordStaysTrue := by
  intro s t hs _ h r hrec
  obtain ⟨-, -, -, hfault⟩ := invariantKeptByEveryStep s t hs h
  have hrun : t.run = .faulted := hfault.2 (by rw [hrec]; rfl)
  obtain ⟨hpc, -⟩ := hs
  obtain ⟨o, c, hc, rfl⟩ := exists_raises_of_faulted h hrun
  cases hrec
  exact ⟨rfl, hc.opcode, (FaultRecord.causeHolds_raise _ s o c).2 (hc.causeHolds hpc)⟩

/-- Settles O11: fault entry writes `run` and the record only, and no step is defined in FAULTED. -/
theorem faultsArePrecise : Obligations.FaultsArePrecise := by
  intro s t _ h hf
  have hstop : step t = .fault .noStepWhenFaulted := (terminalStatesStopByName t).2 hf
  refine ⟨?_, fun u hu => by cases hstop.symm.trans hu⟩
  obtain ⟨o, c, -, rfl⟩ := exists_raises_of_faulted h hf
  rfl

/-- Settles O12: the record that fault entry writes, with the opcode byte of the fault raised. -/
theorem faultEntryWritesTheRecord : Obligations.FaultEntryWritesTheRecord := by
  intro s t _ h hf
  obtain ⟨o, c, hc, rfl⟩ := exists_raises_of_faulted h hf
  exact ⟨c.kind, c.info, hc.opcode ▸ rfl⟩

/-- Settles O40: a RET or POP that completes found SP below the top and leaves it one higher. -/
theorem completedPopLeavesSpAtMostTop : Obligations.CompletedPopLeavesSpAtMostTop := by
  intro i s t _ hi h hok
  obtain rfl | ⟨ra, hra, rfl⟩ := hi
  · cases exec_effect _ s t h with
    | raise => exact absurd rfl hok
    | ret hsp =>
      rw [State.dropTop_sp]
      exact byte_succ_le_stackTop hsp
  · cases exec_effect _ s t h with
    | raise => exact absurd rfl hok
    | pop _ hsp =>
      rw [s.popInto_sp _ hra]
      exact byte_succ_le_stackTop hsp

/-- Settles O33: at SP = 0 both end in the push's fault. -/
theorem pushAndCallAtZeroOverflow : Obligations.PushAndCallAtZeroOverflow := by
  intro ra s hsp
  exact ⟨execPush_zero ra s hsp, execCall_zero ra s hsp⟩

/-- Settles O35: from the top up both end in the pop's fault. -/
theorem popAndRetOnEmptyStackUnderflow : Obligations.PopAndRetOnEmptyStackUnderflow := by
  intro ra s hsp
  have hempty : popBound ≤ s.sp := (popBound_le_iff s.sp).2 hsp
  exact ⟨execPop_empty ra s hempty, execRet_empty s hempty⟩

end Sys2Proof.Machine
end

section
/-! PROOFS. The statements about reset and the load (70_reset_and_hazards.md): first where the load's writes succeed and
what they leave in each cell, said once, then the obligations. -/

namespace Sys2Proof.Machine

/-! ## The load's writes -/

/-- A write of the load inside memory is followed by the load of the remaining bytes one address up (R242). -/
theorem State.loadFrom_cons_of_valid (s : State) {a : Int} (ha : validAddr a) (b : Byte) (rest : List Byte) :
    s.loadFrom a (b :: rest) = State.loadFrom { s with mem := Memory.update s.mem a.toNat b } (a + 1) rest := by
  rw [State.loadFrom, memWrite, if_pos ha]

/-- A write of the load outside memory ends it with no state (R243). -/
theorem State.loadFrom_cons_of_invalid (s : State) {a : Int} (ha : ¬ validAddr a) (b : Byte) (rest : List Byte) :
    s.loadFrom a (b :: rest) = none := by
  rw [State.loadFrom, memWrite, if_neg ha]

/-- A load that succeeds wrote its first byte and then loaded the others one address up (R242). -/
theorem State.loadFrom_cons_some {s t : State} {a : Int} {b : Byte} {rest : List Byte}
    (h : s.loadFrom a (b :: rest) = some t) :
    ∃ m, memWrite s.mem a b = some m ∧ State.loadFrom { s with mem := m } (a + 1) rest = some t := by
  by_cases ha : validAddr a
  · exact ⟨_, (memWrite_eq_some _ _ a b).2 ⟨ha, rfl⟩, (s.loadFrom_cons_of_valid ha b rest).symm.trans h⟩
  · cases (s.loadFrom_cons_of_invalid ha b rest).symm.trans h

/-- A load succeeds exactly if its last byte still lies inside memory (R242, R243). -/
theorem State.exists_loadFrom_iff (s : State) (bs : List Byte) {a : Int} (h0 : 0 ≤ a) (ha : a ≤ 256) :
    (∃ t, s.loadFrom a bs = some t) ↔ a + bs.length ≤ 256 := by
  induction bs generalizing s a with
  | nil => exact iff_of_true ⟨s, rfl⟩ (by simpa using ha)
  | cons b rest ih =>
    rw [List.length_cons]
    by_cases hlt : a ≤ 255
    · rw [s.loadFrom_cons_of_valid ((validAddr_iff a).2 ⟨h0, hlt⟩), ih _ (by omega) (by omega)]
      omega
    · have hout : ¬ validAddr a := by rw [validAddr_iff]; omega
      rw [s.loadFrom_cons_of_invalid hout]
      exact iff_of_false (by simp) (by omega)

/-- A load changes memory alone (R242). -/
theorem State.loadFrom_frame {s t : State} {a : Int} {bs : List Byte} (h : s.loadFrom a bs = some t) :
    ∃ m, t = { s with mem := m } := by
  induction bs generalizing s a with
  | nil => exact ⟨s.mem, (Option.some.inj h).symm⟩
  | cons b rest ih =>
    obtain ⟨m, -, hrest⟩ := State.loadFrom_cons_some h
    exact ih (s := { s with mem := m }) hrest

/-- A load keeps every cell before its first byte and after its last (R242). -/
theorem State.memRead_loadFrom_outside {s t : State} {a : Int} {bs : List Byte} (hm : Memory.wf s.mem)
    (h : s.loadFrom a bs = some t) {c : Int} (hc : c < a ∨ a + bs.length ≤ c) :
    memRead t.mem c = memRead s.mem c := by
  induction bs generalizing s a with
  | nil => rw [Option.some.inj h]
  | cons b rest ih =>
    obtain ⟨m, hw, hrest⟩ := State.loadFrom_cons_some h
    rw [List.length_cons] at hc
    calc memRead t.mem c = memRead m c := ih (memWrite_wf s.mem m hm a b hw) hrest (by omega)
      _ = memRead s.mem c := by rw [memRead_memWrite s.mem m hm a c b hw, if_neg (by omega)]

/-- A load leaves the byte number `k` in the cell `k` above its first: no later byte overwrites it (R242). -/
theorem State.memRead_loadFrom_getElem {s t : State} {a : Int} {bs : List Byte} (hm : Memory.wf s.mem)
    (h : s.loadFrom a bs = some t) {k : Nat} {v : Byte} (hk : bs[k]? = some v) : memRead t.mem (a + k) = some v := by
  induction bs generalizing s a k with
  | nil => cases hk
  | cons b rest ih =>
    obtain ⟨m, hw, hrest⟩ := State.loadFrom_cons_some h
    have hm' : Memory.wf m := memWrite_wf s.mem m hm a b hw
    cases k with
    | zero =>
      obtain rfl : b = v := Option.some.inj hk
      rw [State.memRead_loadFrom_outside hm' hrest (.inl (by omega)), memRead_memWrite s.mem m hm a _ b hw,
        if_pos (by omega)]
    | succ k =>
      have hcell : a + (k + 1 : Nat) = a + 1 + k := by omega
      rw [hcell]
      exact ih hm' hrest hk

/-! ## The obligations -/

/-- Settles O57: an image that fits is loaded; its cells hold its bytes, and all others are those of reset memory. -/
theorem loadPlacesTheProgram : Obligations.LoadPlacesTheProgram := by
  intro p program hfit
  have hm : Memory.wf (State.resetWith p).mem := State.resetWith_wf p
  obtain ⟨t, ht⟩ : ∃ t, (State.resetWith p).loadFrom 0 program = some t :=
    (State.exists_loadFrom_iff _ program (by decide) (by decide)).2 (by omega)
  refine ⟨t, ht, State.loadFrom_wf _ t hm 0 program ht, fun k b hk => ?_, fun k hlo hhi => ?_, ?_⟩
  · simpa using State.memRead_loadFrom_getElem hm ht hk
  · rw [State.memRead_loadFrom_outside hm ht (.inr (by omega))]
    exact (State.resetWith p).hostReset_memRead k (by omega)
  · obtain ⟨m, rfl⟩ := State.loadFrom_frame ht
    rfl

/-- Settles O58: a load at 0 succeeds only for an image of at most 256 bytes. -/
theorem oversizeImageIsNotLoaded : Obligations.OversizeImageIsNotLoaded := by
  intro s program hlong
  refine Option.eq_none_iff_forall_ne_some.2 fun t ht => ?_
  have hfit : (0 : Int) + program.length ≤ 256 :=
    (s.exists_loadFrom_iff program (by decide) (by decide)).1 ⟨t, ht⟩
  omega

/-- Settles O59: two of the values of reset, and `State.reset` is itself the result of a reset. -/
theorem resetStartsRunningAtZero : Obligations.ResetStartsRunningAtZero := by
  have hreset (s : State) : s.hostReset.pc = 0 ∧ s.hostReset.run = .running := by
    obtain ⟨-, -, hpc, -, hrun, -⟩ := resetValues s
    exact ⟨hpc, hrun⟩
  exact ⟨hreset State.reset, hreset⟩

end Sys2Proof.Machine
end
